-- ==== Sys2Proof/Word.lean ====
section
/-! DEFINITION. The word types of the block (00_scope.md rules R3, R4; 30_encoding.md rules R36, R48). -/

namespace Sys2Proof

/-- An unsigned 8-bit value, 0 to 255 (rule R3). -/
abbrev Byte := BitVec 8

/-- An unsigned 32-bit value: the accumulator, a table entry, a remainder (rule R4). -/
abbrev U32 := BitVec 32

/-- A 64-bit command, bit 63 most significant (rule R36). -/
abbrev CommandWord := BitVec 64

/-- A 64-bit response (rule R48). -/
abbrev ResponseWord := BitVec 64

end Sys2Proof
end

