-- ==== Sys2Proof/Config.lean ====
section
/-! DEFINITION. The block's fixed parameters (00_scope.md section 4). None can be configured (10_state.md rule
R14), and the spec leaves no value open, so there is no free value here. -/

namespace Sys2Proof.Config

/-- POLY, the generator polynomial (rule R2). -/
abbrev poly : U32 := 0x04C11DB7#32

/-- INIT_VALUE, the default seed (00_scope.md section 4). -/
abbrev initValue : U32 := 0xFFFFFFFF#32

/-- RESET_CRC, the accumulator's value after reset (rule R17). -/
abbrev resetCrc : U32 := 0xFFFFFFFF#32

/-- ENGINE_TABLE_BITS, the width of the engine's table, fixed (rules R10, R14). -/
abbrev engineTableBits : Nat := 8

/-- The largest width of a table (rule R54). -/
abbrev maxTableBits : Nat := 32

/-- WORD_BYTES, the bytes of a full chunk (00_scope.md section 4). -/
abbrev wordBytes : Nat := 4

end Sys2Proof.Config
end

