-- ==== Sys2Proof/Syntax.lean ====
section
/-! DEFINITION. The six commands of spec/opcode_table.json, with the operands of 30_encoding.md rule R43. -/

namespace Sys2Proof

/-- A command with its operands assembled (rule R43). `n` of FOLD is the chunk length, LENM1 + 1, and `bits` of
TBLENT the width; both are numbers, and WellFormed bounds them to what the encoding admits (log entry 11). -/
inductive Instr where
  /-- INIT: start a computation with the default seed (rule R65). -/
  | init
  /-- SEED: start a computation with a caller-supplied seed (rule R66). -/
  | seed (data : U32)
  /-- GETCRC: read the accumulator (rule R68). -/
  | getcrc
  /-- FOLD: fold one chunk of `n` bytes, byte j in lane j of `data` (rule R67). -/
  | fold (n : Nat) (data : U32)
  /-- TBLRD: read the engine's table (rule R58). -/
  | tblrd (index8 : Byte)
  /-- TBLENT: compute a table entry at width `bits` (rule R59). -/
  | tblent (bits : Nat) (index : U32)
  deriving DecidableEq, Repr

end Sys2Proof
end

