-- ==== Sys2Proof/WellFormed.lean ====
section
/-! DEFINITION. Which commands have an encoding (30_encoding.md rules R43, R49). -/

namespace Sys2Proof

/-- A chunk has 1 to 4 bytes: LENM1 is two bits (rules R43, R49). -/
abbrev Instr.chunkLengthOk (n : Nat) : Prop := 1 ≤ n ∧ n ≤ Config.wordBytes

/-- A width fits the 6-bit field BITS: 0 to 63. Widths 0 and 33 to 63 are encodable, and answered with an error
(rules R43, R49, R79). -/
abbrev Instr.bitsFieldOk (bits : Nat) : Prop := bits ≤ 63

/-- The command has an encoding. -/
def Instr.wf : Instr → Bool
  | .init => true
  | .seed _ => true
  | .getcrc => true
  | .fold n _ => decide (Instr.chunkLengthOk n)
  | .tblrd _ => true
  | .tblent bits _ => decide (Instr.bitsFieldOk bits)

end Sys2Proof
end

