-- ==== Sys2Proof/Decode.lean ====
section
/-! DEFINITION. Decoding and encoding of command words (30_encoding.md rules R36 to R47). The decoder is written
from the formats (rules R37 to R42, R44, R46); the opcode table's masks and matches (rule R45) stand beside it as
rows, and the encoder is the formula of rule R49. -/

namespace Sys2Proof

/-- Why a word spells no command (rule R78). -/
inductive DecodeReject where
  /-- OPC is not one of the six (rule R44). -/
  | reservedOpcode
  /-- OPC is defined, but a bit its format reserves is 1 (rule R46). -/
  | reservedBit
  deriving DecidableEq, Repr

/-- What the decoder makes of a word: a command, or the reason why it is none. -/
inductive Decoded where
  | command (i : Instr)
  | illegal (why : DecodeReject)
  deriving DecidableEq, Repr

/-- OPC, bits [63:56] (rule R37). -/
def opcField (w : CommandWord) : BitVec 8 := w.extractLsb' 56 8

/-- BITS, bits [53:48], used by TBLENT (rule R37). -/
def bitsField (w : CommandWord) : BitVec 6 := w.extractLsb' 48 6

/-- LENM1, bits [49:48], used by FOLD (rule R37). -/
def lenm1Field (w : CommandWord) : BitVec 2 := w.extractLsb' 48 2

/-- DATA (or INDEX), bits [31:0] (rule R37). -/
def dataField (w : CommandWord) : U32 := w.extractLsb' 0 32

/-- INDEX8, bits [7:0], used by TBLRD (rule R37). -/
def index8Field (w : CommandWord) : Byte := w.extractLsb' 0 8

/-- Format N reserves bits [55:0] (rule R38). -/
def reservedOkN (w : CommandWord) : Bool := w.extractLsb' 0 56 == 0#56

/-- Format D reserves bits [55:32] (rule R39). -/
def reservedOkD (w : CommandWord) : Bool := w.extractLsb' 32 24 == 0#24

/-- Format F reserves bits [55:50] and [47:32] (rule R40). -/
def reservedOkF (w : CommandWord) : Bool := w.extractLsb' 50 6 == 0#6 && w.extractLsb' 32 16 == 0#16

/-- Format T reserves bits [55:54] and [47:32] (rule R41). -/
def reservedOkT (w : CommandWord) : Bool := w.extractLsb' 54 2 == 0#2 && w.extractLsb' 32 16 == 0#16

/-- Format R reserves bits [55:8] (rule R42). -/
def reservedOkR (w : CommandWord) : Bool := w.extractLsb' 8 48 == 0#48

/-- A word of a defined OPC is its command if its reserved bits are zero, and illegal otherwise (rule R46). -/
def ifReservedZero (ok : Bool) (i : Instr) : Decoded :=
  if ok then .command i else .illegal .reservedBit

/-- The decoder, total over all 2^64 words (rules R44 to R46). The operands are assembled as rule R43 says. -/
def decode (w : CommandWord) : Decoded :=
  if opcField w = 0x01#8 then ifReservedZero (reservedOkN w) .init
  else if opcField w = 0x02#8 then ifReservedZero (reservedOkD w) (.seed (dataField w))
  else if opcField w = 0x03#8 then ifReservedZero (reservedOkN w) .getcrc
  else if opcField w = 0x10#8 then
    ifReservedZero (reservedOkF w) (.fold ((lenm1Field w).toNat + 1) (dataField w))
  else if opcField w = 0x20#8 then ifReservedZero (reservedOkR w) (.tblrd (index8Field w))
  else if opcField w = 0x21#8 then
    ifReservedZero (reservedOkT w) (.tblent (bitsField w).toNat (dataField w))
  else .illegal .reservedOpcode

/-- The word of rule R49: OPC << 56 | BITS << 48 | LENM1 << 48 | DATA. -/
def packFields (opc : BitVec 8) (bits : BitVec 6) (lenm1 : BitVec 2) (data : U32) : CommandWord :=
  (opc.setWidth 64 <<< 56) ||| (bits.setWidth 64 <<< 48) ||| (lenm1.setWidth 64 <<< 48) ||| data.setWidth 64

/-- The encoder: the word of a well-formed command, unused fields zero (rules R38 to R42, R44, R49). -/
def encode : Instr → CommandWord
  | .init => packFields 0x01#8 0#6 0#2 0#32
  | .seed data => packFields 0x02#8 0#6 0#2 data
  | .getcrc => packFields 0x03#8 0#6 0#2 0#32
  | .fold n data => packFields 0x10#8 0#6 (BitVec.ofNat 2 (n - 1)) data
  | .tblrd index8 => packFields 0x20#8 0#6 0#2 (index8.setWidth 32)
  | .tblent bits index => packFields 0x21#8 (BitVec.ofNat 6 bits) 0#2 index

/-- One row of the opcode table (rule R45). -/
structure OpcodeRow where
  mnemonic : String
  matchBits : CommandWord
  mask : CommandWord
  deriving DecidableEq, Repr

/-- The word selects the row: (w & mask) == match (rule R45). -/
abbrev OpcodeRow.selects (r : OpcodeRow) (w : CommandWord) : Prop := w &&& r.mask = r.matchBits

def initRow : OpcodeRow := ⟨"INIT", 0x0100000000000000#64, 0xFFFFFFFFFFFFFFFF#64⟩
def seedRow : OpcodeRow := ⟨"SEED", 0x0200000000000000#64, 0xFFFFFFFF00000000#64⟩
def getcrcRow : OpcodeRow := ⟨"GETCRC", 0x0300000000000000#64, 0xFFFFFFFFFFFFFFFF#64⟩
def foldRow : OpcodeRow := ⟨"FOLD", 0x1000000000000000#64, 0xFFFCFFFF00000000#64⟩
def tblrdRow : OpcodeRow := ⟨"TBLRD", 0x2000000000000000#64, 0xFFFFFFFFFFFFFF00#64⟩
def tblentRow : OpcodeRow := ⟨"TBLENT", 0x2100000000000000#64, 0xFFC0FFFF00000000#64⟩

/-- The table of rule R45, as spec/opcode_table.json has it. -/
def opcodeTable : List OpcodeRow := [initRow, seedRow, getcrcRow, foldRow, tblrdRow, tblentRow]

/-- The command's row of the table. -/
def Instr.row : Instr → OpcodeRow
  | .init => initRow
  | .seed _ => seedRow
  | .getcrc => getcrcRow
  | .fold _ _ => foldRow
  | .tblrd _ => tblrdRow
  | .tblent _ _ => tblentRow

/-- The command word whose `nbits` low bits are those of `w`, numbered as the opcode table numbers them (bit 0 least
significant), every bit above them zero. A command is one whole word (rules R36, R47), so bits of `w`
from 64 on, which no row of the table has, are dropped (log entry 19). -/
def tableWord (nbits w : Nat) : CommandWord := BitVec.ofNat 64 (w % 2 ^ nbits)

/-- The command the decoder reads from an opcode-table word, if it is one. -/
def decodeTableWord (nbits w : Nat) : Option Instr :=
  match decode (tableWord nbits w) with
  | .command i => some i
  | .illegal _ => none

end Sys2Proof
end

