-- ==== Sys2Proof/Machine/State.lean ====
section
/-! DEFINITION. The state of the machine as plain data, and its value right after reset (10_state.md). -/

namespace Sys2Proof.Machine

/-- What the host and the platform do at the block's port, one event at a time (log entries 1, 3, 4). -/
inductive Input where
  /-- The host delivers a command, which completes (rules R30, R36). -/
  | command (w : CommandWord)
  /-- The platform asserts reset with no command in progress (rule R94). -/
  | reset
  /-- The platform asserts reset while the command `w` is in progress (rule R95). -/
  | resetDuring (w : CommandWord)
  deriving DecidableEq, Repr

/-- The machine's state. `crc` is the block's whole architectural state (rule R16); the table is a constant (rule
R10). The two lists are the block's interface: DESIGN CHOICE, safe (log entries 1 and 2). -/
structure State where
  /-- `CRC`, the accumulator (rule R7). -/
  crc : U32
  /-- What the host and the platform still do, oldest first. -/
  inputs : List Input
  /-- The responses given so far, oldest first (rules R30, R48). -/
  responses : List ResponseWord
  deriving DecidableEq, Repr

/-- Why a step stops the machine: never. The block has no trap, and every error is a response after which the block
is ready for the next command (rules R82, R84), so no constructor stands here (log entry 10; safe). -/
inductive Fault where
  deriving DecidableEq, Repr

/-- Why an instruction has no meaning. -/
inductive Refusal where
  /-- Raised by an arm of `exec` whose instruction has no meaning yet: by none, here. Safe: it stops. -/
  | notModelled (mnemonic : String)
  deriving DecidableEq, Repr

/-- The machine right after reset: CRC holds RESET_CRC (rules R17, R94), the port is empty (rule R94) and no response
has been given (log entry 9). -/
def State.reset : State := ⟨Config.resetCrc, [], []⟩

end Sys2Proof.Machine
end

