-- ==== Sys2Proof/Machine/Flags.lean ====
section
/-! DEFINITION. Status codes and the response word. The block has no flags (10_state.md rule R13): a command's
outcome is reported by STAT in its own response, and only there (60_exceptions.md rule R77). -/

namespace Sys2Proof.Machine

/-- The four status codes; no other exists (rule R77). -/
inductive Status where
  /-- The command completed. -/
  | ok
  /-- IllegalCommand (rule R78). -/
  | illegal
  /-- ConfigError (rule R79). -/
  | cfgErr
  /-- RangeError (rule R80). -/
  | rangeErr
  deriving DecidableEq, Repr

/-- STAT (rule R77). -/
def statCode : Status → BitVec 2
  | .ok => 0#2
  | .illegal => 1#2
  | .cfgErr => 2#2
  | .rangeErr => 3#2

/-- The response word of `respond(st, d)`: zext_64(st) << 32 | zext_64(d) (rule R48). -/
def responseWord (st : Status) (d : U32) : ResponseWord :=
  ((statCode st).setWidth 64 <<< 32) ||| d.setWidth 64

/-- STAT of a response, bits [33:32] (rule R48). -/
def statOf (r : ResponseWord) : BitVec 2 := r.extractLsb' 32 2

/-- RDATA of a response, bits [31:0] (rule R48). -/
def rdataOf (r : ResponseWord) : U32 := r.extractLsb' 0 32

/-- Bits [63:34] of a response, always zero (rule R48). -/
def upperOf (r : ResponseWord) : BitVec 30 := r.extractLsb' 34 30

end Sys2Proof.Machine
end

