-- ==== Sys2Proof/Machine/Ops.lean ====
section
/-! DEFINITION. The operations every meaning is written over: the accumulator, the response, the error, the reset
event, and the block's idling. The block has no memory to read or write (20_memory.md rules R28, R29). -/

namespace Sys2Proof.Machine

/-- What one instruction or one step answers. -/
abbrev Answer := Host.Outcome State Fault Refusal

/-- A read of `CRC` (rule R7). -/
def readCrc (s : State) : U32 := s.crc

/-- `CRC <- v` (rule R7). Every write is a full 32-bit value (rule R8). -/
def writeCrc (v : U32) (s : State) : State := { s with crc := v }

/-- `respond(st, d)`: the command's one response, after all earlier ones (rules R30, R48). -/
def respond (st : Status) (d : U32) (s : State) : State :=
  { s with responses := s.responses ++ [responseWord st d] }

/-- A command completes: STAT is OK and RDATA its data (rule R77). -/
def complete (d : U32) (s : State) : Answer := .next (respond .ok d s)

/-- `raise E()`: the one way an error is taken. It writes no state, answers `respond(E, 0x00000000)`, and the block is
ready for the next command (rule R82). Nothing is saved and control goes nowhere (rule R84), and there is no return
from it (rule R85). -/
def raise (e : Status) (s : State) : Answer := .next (respond e 0#32 s)

/-- The reset event: `CRC <- RESET_CRC`, no response, and responses already given stand (rules R94, R95). -/
def onReset (s : State) : Answer := .next (writeCrc Config.resetCrc s)

/-- With nothing at the port the block idles and `CRC` keeps its value (rules R9, R93). -/
def idle (s : State) : Answer := .next s

end Sys2Proof.Machine
end

