-- ==== Sys2Proof/Machine/Operands.lean ====
section
/-! DEFINITION. Operand forms: the lanes of FOLD's DATA and the order in which a chunk is consumed (20_memory.md
rules R20 to R23, 41_crc_engine.md rule R61), and the operand checks of TBLENT (60_exceptions.md rules R79, R80). -/

namespace Sys2Proof.Machine

/-- Lane j of DATA, bits [8j+7:8j], for j of 0 to 3: chunk byte j (rule R20). -/
def lane (data : U32) (j : Nat) : Byte := data.extractLsb' (8 * j) 8

/-- The four lanes, lane 0 first. -/
def lanes (data : U32) : List Byte := [lane data 0, lane data 1, lane data 2, lane data 3]

/-- k zero bytes. -/
def zeros (k : Nat) : List Byte := List.replicate k 0#8

/-- ConsumeSeq(n, DATA): the bytes of the chunk in the order the engine folds them (rule R61). Lanes n to 3 are not
read; a partial chunk is reversed, padded on the right with zero bytes, and then, like a full one, consumed last byte
first (rules R21, R22). The rule is for n of 1 to 4; at n of 0 and above 4 see log entry 19. -/
def consumeSeq (n : Nat) (data : U32) : List Byte :=
  let word := (lanes data).take n
  (if n < Config.wordBytes then word.reverse ++ zeros (Config.wordBytes - n) else word).reverse

/-- WordView(n, DATA): the u32 whose bytes, most significant first, are the bytes consumed (rule R23). The machine
does not use it; statements about FOLD do. The rule is for n of 1 to 4; the last case, DATA itself, also answers any other
n (log entry 19). -/
def wordView (n : Nat) (data : U32) : U32 :=
  if n = 1 then 0#24 ++ lane data 0
  else if n = 2 then 0#16 ++ lane data 0 ++ lane data 1
  else if n = 3 then 0#8 ++ lane data 0 ++ lane data 1 ++ lane data 2
  else data

/-- A table width is valid if and only if it is 1 to 32 (rules R54, R79). -/
abbrev widthValid (b : Nat) : Prop := 1 ≤ b ∧ b ≤ Config.maxTableBits

/-- The index is in the table of width b: below 2^b (rule R80). -/
abbrev indexInTable (b : Nat) (i : U32) : Prop := i.toNat < 2 ^ b

end Sys2Proof.Machine
end

