-- ==== Sys2Proof/Machine/TableBuilder.lean ====
section
/-! DEFINITION. The Table Builder family (40_table_builder.md): the division step, the table entry, the table, and the
commands TBLRD and TBLENT. -/

namespace Sys2Proof.Machine

/-- DivStep: one step of polynomial division, most significant bit first (rule R51). -/
def divStep (x : U32) : U32 :=
  if x.getLsbD 31 then (x <<< 1) ^^^ Config.poly else x <<< 1

/-- Div^k: k division steps (rule R51). -/
def divPow : Nat → U32 → U32
  | 0, x => x
  | k + 1, x => divPow k (divStep x)

/-- TableEntry(b, i) = Div^b(i << (32 - b)), for 1 ≤ b ≤ 32 and i < 2^b (rule R52). DESIGN CHOICE (log entry 19): outside
that domain the spec defines no entry, and the function is total: it then shifts i by 32 - b all the same, dropping the
bits above bit 31, and by 0 for b above 32. No command answers such a value: TBLENT checks both first. -/
def tableEntry (b : Nat) (i : U32) : U32 := divPow b (i <<< (32 - b))

/-- BuildTable(b), for 1 ≤ b ≤ 32: the 2^b entries, in increasing index (rule R53). DESIGN CHOICE (log entry 19): at any
other width the spec has no table but an error (rule R54), and the function is total: the list it gives there, [0] for 0
and with indices modulo 2^32 above 32, stands for nothing. `buildTableResult` and `requestTable` report the error. -/
def buildTable (b : Nat) : List U32 :=
  (List.range (2 ^ b)).map fun i => tableEntry b (BitVec.ofNat 32 i)

/-- Tbl[i]: entry i of the engine's table, a constant of the block (rule R10). -/
def tbl (i : Byte) : U32 := tableEntry Config.engineTableBits (i.setWidth 32)

/-- TBLRD (rule R58). -/
def execTblrd (index8 : Byte) (s : State) : Answer := complete (tbl index8) s

/-- TBLENT (rule R59): the width is checked before the index (rule R83). -/
def execTblent (bits : Nat) (index : U32) (s : State) : Answer :=
  if ¬ widthValid bits then raise .cfgErr s
  else if ¬ indexInTable bits index then raise .rangeErr s
  else complete (tableEntry bits index) s

end Sys2Proof.Machine
end

