-- ==== Sys2Proof/Machine/CrcEngine.lean ====
section
/-! DEFINITION. The CRC Engine family (41_crc_engine.md): the byte fold, the word fold, and the commands INIT, SEED,
FOLD and GETCRC. -/

namespace Sys2Proof.Machine

/-- ByteFold(c, b): the top byte of c XORed with b indexes the table (rule R60). -/
def byteFold (c : U32) (b : Byte) : U32 := (c <<< 8) ^^^ tbl (c.extractLsb' 24 8 ^^^ b)

/-- ProcessWord(c, n, DATA): fold the consumption sequence, first byte to last (rule R62, for n of 1 to 4; log entry 19
for any other n). -/
def processWord (c : U32) (n : Nat) (data : U32) : U32 := (consumeSeq n data).foldl byteFold c

/-- `CRC <- v`, answered with the new value: what INIT, SEED and FOLD end in (rules R65 to R67). -/
def updateCrc (v : U32) (s : State) : Answer := complete v (writeCrc v s)

/-- INIT (rule R65). -/
def execInit (s : State) : Answer := updateCrc Config.initValue s

/-- SEED (rule R66). -/
def execSeed (data : U32) (s : State) : Answer := updateCrc data s

/-- FOLD (rule R67). -/
def execFold (n : Nat) (data : U32) (s : State) : Answer := updateCrc (processWord (readCrc s) n data) s

/-- GETCRC (rule R68). -/
def execGetcrc (s : State) : Answer := complete (readCrc s) s

end Sys2Proof.Machine
end

