-- ==== Sys2Proof/Machine/Dispatch.lean ====
section
/-! DEFINITION. One arm per command of spec/opcode_table.json. -/

namespace Sys2Proof.Machine

def exec (i : Instr) (s : State) : Host.Outcome State Fault Refusal :=
  match i with
  | .init => Sys2Proof.Machine.execInit s
  | .seed data => Sys2Proof.Machine.execSeed data s
  | .getcrc => Sys2Proof.Machine.execGetcrc s
  | .fold n data => Sys2Proof.Machine.execFold n data s
  | .tblrd index8 => Sys2Proof.Machine.execTblrd index8 s
  | .tblent bits index => Sys2Proof.Machine.execTblent bits index s

end Sys2Proof.Machine
end

