-- ==== Sys2Proof/Machine/Port.lean ====
section
/-! DEFINITION. The command port: what one event at the port does (30_encoding.md rules R36, R45; 60_exceptions.md
rule R83; 70_reset_and_hazards.md rules R94, R95). -/

namespace Sys2Proof.Machine

/-- A delivered command word: decoding precedes execution (rule R83), and a word that spells no command raises
IllegalCommand, whatever the reason (rules R45, R78). -/
def runCommand (w : CommandWord) (s : State) : Answer :=
  match decode w with
  | .command i => exec i s
  | .illegal _ => raise .illegal s

/-- One event. A command in progress when reset is asserted is abandoned: it gets no response, and the reset
overwrites what it could have changed (rule R95). -/
def runInput (e : Input) (s : State) : Answer :=
  match e with
  | .command w => runCommand w s
  | .reset => onReset s
  | .resetDuring _ => onReset s

/-- The state with the events `es` still to come. -/
def setInputs (es : List Input) (s : State) : State := { s with inputs := es }

/-- The state with the command word `w` as the very next event. -/
def deliverNext (w : CommandWord) (s : State) : State := setInputs (.command w :: s.inputs) s

end Sys2Proof.Machine
end

