-- ==== Sys2Proof/Machine/Step.lean ====
section
/-! DEFINITION. One step: the oldest event at the port takes effect, whole (20_memory.md rules R26, R30; 70_reset_and_hazards.md
rule R100). The block fetches nothing (10_state.md rule R12). -/

namespace Sys2Proof.Machine

/-- One step of the machine. -/
def step (s : State) : Host.Outcome State Fault Refusal :=
  match s.inputs with
  | [] => idle s
  | e :: rest => runInput e (setInputs rest s)

/-- The state with an opcode-table word delivered as the very next command: the host's delivery is what a fetch would
be elsewhere (rule R12; log entry 8). -/
def State.withFetchWord (s : State) (nbits w : Nat) : State := deliverNext (tableWord nbits w) s

end Sys2Proof.Machine
end

