-- ==== Sys2Proof/Machine/EntryPoints.lean ====
section
/-! DEFINITION. The host's side of the block: the buffer cut into chunks (20_memory.md rules R19, R20), the functions
compute, crc32 and build_table as command sequences (42_entry_points.md rules R69 to R72), and the errors a host
reports (60_exceptions.md rule R81; rule R72). The control flow here is the host's, not the block's (rule R12). -/

namespace Sys2Proof.Machine

/-- The errors of the host's functions. -/
inductive HostError where
  /-- A value outside 0 to 255 in the logical buffer, rejected before encoding (rule R81). -/
  | valueError
  /-- build_table was asked for an invalid width (rule R72). -/
  | configurationError
  deriving DecidableEq, Repr

/-- The bytes of a logical buffer, if every value is a byte (rules R81, R99 item 6). -/
def hostBytes (buffer : List Nat) : Except HostError (List Byte) :=
  if buffer.all (· < 256) then .ok (buffer.map (BitVec.ofNat 8)) else .error .valueError

/-- The chunks of a buffer, in increasing offset; only the last may be short, and an empty buffer has none (rule
R19). -/
def chunks : List Byte → List (List Byte)
  | c0 :: c1 :: c2 :: c3 :: rest => [c0, c1, c2, c3] :: chunks rest
  | [] => []
  | short => [short]

/-- DATA of a chunk: byte j in lane j, absent bytes zero (rules R20, R50). A chunk has at most four
bytes; of a longer list the first four are packed (log entry 19). -/
def packLanes (chunk : List Byte) : U32 :=
  chunk.foldr (fun c data => c.setWidth 32 ||| (data <<< 8)) 0#32

/-- FOLDB: the FOLD that carries a chunk of one to four bytes (rule R50; log entry 19 for any other list). -/
def foldb (chunk : List Byte) : Instr := .fold chunk.length (packLanes chunk)

/-- COMPUTE seed, buffer (rule R69). -/
def computeCommands (seed : U32) (buffer : List Byte) : List Instr :=
  .seed seed :: ((chunks buffer).map foldb ++ [.getcrc])

/-- CRC32 buffer: COMPUTE with INIT in place of the SEED (rule R70). -/
def crc32Commands (buffer : List Byte) : List Instr :=
  .init :: ((chunks buffer).map foldb ++ [.getcrc])

/-- BUILDTABLE bits: TBLENT bits, i for i = 0 to 2^bits - 1 (rule R72). DESIGN CHOICE (log entry 17): at widths above
32, all of them invalid, the indices from 2^32 on fit no INDEX field and the spec does not say what is sent for them; the
list has them modulo 2^32. Above width 63 no TBLENT has an encoding: the list is not sent then (`requestTable`). -/
def buildTableCommands (bits : Nat) : List Instr :=
  (List.range (2 ^ bits)).map fun i => .tblent bits (BitVec.ofNat 32 i)

/-- What the host does when build_table(bits) is called: it sends BUILDTABLE, or, at a width above 63, which no BITS
field holds, it reports ConfigurationError and sends nothing. DESIGN CHOICE (log entry 17): rule R72's first CFG_ERR
response cannot come there, and the spec does not say how the error is reported. -/
def requestTable (bits : Nat) : Except HostError (List Instr) :=
  if bits ≤ 63 then .ok (buildTableCommands bits) else .error .configurationError

/-- For width 8 the host may read the engine's table instead: TBLRD i for i = 0 to 255 (rule R72). -/
def readTableCommands : List Instr := (List.range 256).map fun i => .tblrd (BitVec.ofNat 8 i)

/-- Compute(seed, buffer): fold the chunks into the seed, in order (rule R69). -/
def compute (seed : U32) (buffer : List Byte) : U32 :=
  (chunks buffer).foldl (fun c chunk => processWord c chunk.length (packLanes chunk)) seed

/-- Crc32(buffer) (rule R70). -/
def crc32 (buffer : List Byte) : U32 := compute Config.initValue buffer

/-- The commands as the host delivers them: well-formed ones, since `encode` keeps of a chunk length or a width only what
its field holds (log entries 11 and 17). -/
def deliver (commands : List Instr) : List Input := commands.map fun i => .command (encode i)

/-- What build_table returns from the responses of BUILDTABLE: the entries, or ConfigurationError if a command
answered CFG_ERR (rule R72). It is meant for the responses of BUILDTABLE; what it gives for another list of responses is
log entry 19. -/
def buildTableResult (rs : List ResponseWord) : Except HostError (List U32) :=
  if rs.any (statOf · == statCode .cfgErr) then .error .configurationError else .ok (rs.map rdataOf)

end Sys2Proof.Machine
end

