-- ==== Sys2Proof/Machine/Assembler.lean ====
section
/-! DEFINITION. The assembler: one command per line, and the pseudo-instructions (30_encoding.md rules R49, R50). A
line is a list of characters. The lexical points the rules leave open are DESIGN CHOICE, safe (log entry 13). -/

namespace Sys2Proof.Machine

/-- A line of the syntax, its numbers as written (rules R49, R50). -/
inductive AsmLine where
  | init
  | seed (v : Nat)
  | getcrc
  | fold (n v : Nat)
  | tblrd (v : Nat)
  | tblent (bits v : Nat)
  | foldb (bytes : List Nat)
  | compute (seed : Nat) (bytes : List Byte)
  | crc32 (bytes : List Byte)
  | buildtable (bits : Nat)
  deriving DecidableEq, Repr

/-- A `<u32>` operand. -/
def asU32 (v : Nat) : Option U32 := if v < 2 ^ 32 then some (BitVec.ofNat 32 v) else none

/-- A `<u8>` operand. -/
def asByte (v : Nat) : Option Byte := if v < 256 then some (BitVec.ofNat 8 v) else none

/-- DATA with zero in the lanes n to 3, n of 1 to 4 (rule R49; log entries 12 and 19). -/
def keepLanes (n : Nat) (data : U32) : U32 := data &&& BitVec.ofNat 32 (2 ^ (8 * n) - 1)

/-- The operands of FOLDB: one to four bytes (rule R50). -/
def asChunk (bytes : List Nat) : Option (List Byte) :=
  if 1 ≤ bytes.length ∧ bytes.length ≤ 4 then bytes.mapM asByte else none

/-- The commands a line stands for, or none where the assembler rejects it: an operand too large for its field, FOLD
with n outside 1 to 4, a width above 63 (rules R49, R50; that every operand too large is rejected is log entry 13, and
BUILDTABLE outside the valid widths log entry 17). -/
def expand : AsmLine → Option (List Instr)
  | .init => some [.init]
  | .seed v => (asU32 v).map fun d => [.seed d]
  | .getcrc => some [.getcrc]
  | .fold n v => if 1 ≤ n ∧ n ≤ 4 then (asU32 v).map fun d => [.fold n (keepLanes n d)] else none
  | .tblrd v => (asByte v).map fun i => [.tblrd i]
  | .tblent bits v => if bits ≤ 63 then (asU32 v).map fun i => [.tblent bits i] else none
  | .foldb bytes => (asChunk bytes).map fun chunk => [foldb chunk]
  | .compute seed bytes => (asU32 seed).map fun d => computeCommands d bytes
  | .crc32 bytes => some (crc32Commands bytes)
  | .buildtable bits => if bits ≤ 63 then some (buildTableCommands bits) else none

/-- The words of a line. -/
def assemble (l : AsmLine) : Option (List CommandWord) := (expand l).map (·.map encode)

/-- A token of a line. -/
inductive Token where
  | name (cs : List Char)
  | num (v : Nat)
  | comma
  | text (bytes : List Byte)
  deriving DecidableEq, Repr

/-- What the scanner is inside of, its characters or bytes read so far newest first. -/
inductive LexMode where
  | between
  | word (acc : List Char)
  | quoted (acc : List Byte)
  deriving DecidableEq, Repr

/-- The double quote. -/
def quoteChar : Char := Char.ofNat 0x22

/-- The apostrophe. -/
def apostrophe : Char := Char.ofNat 0x27

/-- The backslash. -/
def backslash : Char := Char.ofNat 0x5C

/-- The value of a digit in base 10 or 16. -/
def digitValue (base : Nat) (c : Char) : Option Nat :=
  let n := c.toNat
  if 0x30 ≤ n ∧ n ≤ 0x39 then some (n - 0x30)
  else if base = 16 ∧ 0x41 ≤ n ∧ n ≤ 0x46 then some (n - 0x41 + 10)
  else if base = 16 ∧ 0x61 ≤ n ∧ n ≤ 0x66 then some (n - 0x61 + 10)
  else none

/-- A digit string as a number. -/
def digitsValue (base : Nat) (cs : List Char) : Option Nat :=
  if cs = [] then none
  else cs.foldl (fun acc c => acc.bind fun v => (digitValue base c).map fun d => base * v + d) (some 0)

/-- A byte in quotes or escaped: printable ASCII stands for itself (rule R50). -/
def isPrintable (c : Char) : Bool := 0x20 ≤ c.toNat && c.toNat ≤ 0x7E

/-- A word as a token: a decimal or 0x number, a character in apostrophes (as the example of rule R75 writes bytes),
or a name. DESIGN CHOICE (log entry 13): a character in apostrophes is a number like any other, so it is accepted wherever
rule R49 or R50 has a numeric operand, not for bytes only. -/
def wordToken (cs : List Char) : Option Token :=
  match cs with
  | [] => none
  | c :: rest =>
    if c = apostrophe then
      match rest with
      | [b, close] => if close = apostrophe && isPrintable b then some (.num b.toNat) else none
      | _ => none
    else if (digitValue 10 c).isSome then
      match rest with
      | x :: digits => if c = '0' && x = 'x' then (digitsValue 16 digits).map .num else (digitsValue 10 cs).map .num
      | [] => (digitsValue 10 cs).map .num
    else some (.name cs)

/-- The token the scanner was inside of, if any, at its end; a string must have been closed. -/
def flush : LexMode → Option (List Token)
  | .between => some []
  | .word acc => (wordToken acc.reverse).map fun t => [t]
  | .quoted _ => none

/-- Tokens `a`, then tokens `b`, if both are. -/
def joinTokens (a b : Option (List Token)) : Option (List Token) := a.bind fun x => b.map fun y => x ++ y

/-- The tokens of a line, its comment after `;` left out (rule R49); in a string, `\xHH` is a byte (rule R50). DESIGN CHOICE (log entry 13): an apostrophe opens nothing for the scanner, so a
space, tab, comma, semicolon or double quote ends the word even between apostrophes, and such a line is rejected; a double
quote ends a word before it, a semicolon in a string is a byte of it, and `\xHH` is accepted for every byte value, those of
printable ASCII among them. -/
def lex : LexMode → List Char → Option (List Token)
  | mode, [] => flush mode
  | .quoted acc, c :: cs =>
    if c = quoteChar then joinTokens (some [.text acc.reverse]) (lex .between cs)
    else if c = backslash then
      match cs with
      | x :: h :: l :: rest =>
        match digitValue 16 h, digitValue 16 l with
        | some hi, some lo => if x = 'x' then lex (.quoted (BitVec.ofNat 8 (16 * hi + lo) :: acc)) rest else none
        | _, _ => none
      | _ => none
    else if isPrintable c then lex (.quoted (BitVec.ofNat 8 c.toNat :: acc)) cs
    else none
  | .word acc, c :: cs =>
    if c = ';' then flush (.word acc)
    else if c = ' ' || c = '\t' then joinTokens (flush (.word acc)) (lex .between cs)
    else if c = ',' then joinTokens (flush (.word acc)) (joinTokens (some [.comma]) (lex .between cs))
    else if c = quoteChar then joinTokens (flush (.word acc)) (lex (.quoted []) cs)
    else lex (.word (c :: acc)) cs
  | .between, c :: cs =>
    if c = ';' then some []
    else if c = ' ' || c = '\t' then lex .between cs
    else if c = ',' then joinTokens (some [.comma]) (lex .between cs)
    else if c = quoteChar then lex (.quoted []) cs
    else lex (.word [c]) cs

/-- Operands separated by commas. -/
def operands : List Token → Option (List Token)
  | [] => some []
  | [.comma] => none
  | [t] => some [t]
  | .comma :: _ => none
  | t :: .comma :: t' :: rest => (operands (t' :: rest)).map fun ts => t :: ts
  | _ => none

/-- The numbers of a list of number tokens. -/
def numbers : List Token → Option (List Nat)
  | [] => some []
  | .num v :: rest => (numbers rest).map fun vs => v :: vs
  | _ => none

/-- The line of a mnemonic and its operands (rules R49, R50). -/
def parseOperands (mnemonic : List Char) (ops : List Token) : Option AsmLine :=
  if mnemonic = "INIT".toList then (if ops = [] then some .init else none)
  else if mnemonic = "GETCRC".toList then (if ops = [] then some .getcrc else none)
  else if mnemonic = "SEED".toList then (match ops with | [.num v] => some (.seed v) | _ => none)
  else if mnemonic = "FOLD".toList then (match ops with | [.num n, .num v] => some (.fold n v) | _ => none)
  else if mnemonic = "TBLRD".toList then (match ops with | [.num v] => some (.tblrd v) | _ => none)
  else if mnemonic = "TBLENT".toList then
    (match ops with | [.num b, .num v] => some (.tblent b v) | _ => none)
  else if mnemonic = "FOLDB".toList then (numbers ops).map .foldb
  else if mnemonic = "COMPUTE".toList then
    (match ops with | [.num s, .text bs] => some (.compute s bs) | _ => none)
  else if mnemonic = "CRC32".toList then (match ops with | [.text bs] => some (.crc32 bs) | _ => none)
  else if mnemonic = "BUILDTABLE".toList then
    (match ops with | [.num b] => some (.buildtable b) | _ => none)
  else none

/-- The words of one line of text; an empty line, or one with a comment only, has none. -/
def assembleText (line : List Char) : Option (List CommandWord) :=
  match lex .between line with
  | some [] => some []
  | some (.name mnemonic :: rest) => ((operands rest).bind (parseOperands mnemonic)).bind assemble
  | _ => none

end Sys2Proof.Machine
end

