-- ==== Sys2Proof/Safety.lean ====
section
/-! DEFINITION. What counts as a safe run, in the terms claims use: well-formed responses, clean runs and computations
(30_encoding.md rule R48; 60_exceptions.md rules R77, R82; 42_entry_points.md rule R76). -/

namespace Sys2Proof.Machine

/-- A response is well formed: bits [63:34] are zero (rule R48), and an error's RDATA is zero (rule R82). -/
abbrev responseOk (r : ResponseWord) : Prop :=
  upperOf r = 0#30 ∧ (statOf r ≠ statCode .ok → rdataOf r = 0#32)

/-- Every response given so far is well formed: the machine's invariant. -/
def responsesOk (s : State) : Prop := ∀ r ∈ s.responses, responseOk r

/-- `n` steps from `s`, by the host's own definition of a run, with its types written as this model's. -/
def runSteps (n : Nat) (s : State) : Answer := Sys2Proof.core.run n s

/-- The run of `n` steps from `s` is safe: it neither faults nor is refused. -/
def safeRun (n : Nat) (s : State) : Prop := ∃ t, runSteps n s = .next t

/-- Every response has STAT = OK (rule R76). -/
def clean (rs : List ResponseWord) : Prop := ∀ r ∈ rs, statOf r = statCode .ok

/-- How many of the events are commands that complete. -/
def commandCount : List Input → Nat
  | [] => 0
  | .command _ :: es => commandCount es + 1
  | .reset :: es => commandCount es
  | .resetDuring _ :: es => commandCount es

/-- INIT or SEED: the command starts a computation (rule R76). -/
def startsComputation : Instr → Bool
  | .init => true
  | .seed _ => true
  | .getcrc => false
  | .fold _ _ => false
  | .tblrd _ => false
  | .tblent _ _ => false

/-- INIT, SEED or FOLD: the command writes `CRC` (rules R7, R27). -/
def writesCrc : Instr → Bool
  | .init => true
  | .seed _ => true
  | .getcrc => false
  | .fold _ _ => true
  | .tblrd _ => false
  | .tblent _ _ => false

/-- A computation: from one INIT or SEED up to and including the GETCRC that ends it, with no INIT or SEED between
(rule R76). DESIGN CHOICE (log entry 18): it is a list of commands, so a sequence of words that holds an illegal one is no
computation; the error responses a computation can have are those of TBLENT. -/
def isComputation (commands : List Instr) : Prop :=
  ∃ start middle, commands = start :: (middle ++ [.getcrc]) ∧ startsComputation start = true ∧
    ∀ i ∈ middle, startsComputation i = false

end Sys2Proof.Machine
end

