-- ==== Sys2Proof/Certificates/Slice0/Obligations.lean ====
section
/-! DEFINITION. The statements for the provers, each formalising a rule of spec/ (or resting on the sections named in
OBLIGATIONS.json). A rule the spec itself marks as derived is cited by its section. The events `command`, `reset` and
`resetDuring` and the list of responses are the model's form of the block's interface (log entries 1 to 4). -/

open Sys2Proof Sys2Proof.Machine

/-! ## Reset, idling and the step -/

/-- Rule R17: CRC resets to 0xFFFFFFFF, which is INIT_VALUE, so a computation started straight after reset without INIT
or SEED computes crc32 of its buffer, and its GETCRC answers that value. -/
def Obligations.ResetStartsDefaultComputation : Prop :=
  State.reset.crc = 0xFFFFFFFF#32 ∧ State.reset.crc = Config.initValue ∧
  ∀ buffer : List Byte, ∃ rs,
    runSteps ((chunks buffer).length + 1)
      (setInputs (deliver ((chunks buffer).map foldb ++ [.getcrc])) State.reset)
    = .next ⟨crc32 buffer, [], rs ++ [responseWord .ok (crc32 buffer)]⟩

/-- Rules R94 and R95: reset, with or without a command in progress, leaves CRC at 0xFFFFFFFF and changes nothing else;
the command in progress gets no response, and responses already given stand. -/
def Obligations.ResetEventSetsCrcAndAnswersNothing : Prop :=
  ∀ (s : State) (e : Input) (rest : List Input), s.inputs = e :: rest →
    (e = .reset ∨ ∃ w, e = .resetDuring w) →
    step s = .next ⟨0xFFFFFFFF#32, rest, s.responses⟩

/-- With nothing at the port the block idles: nothing changes. That the model steps then at all is its own choice (log
entry 5); that CRC keeps its value is rules R9 and R93. -/
def Obligations.IdleStepChangesNothing : Prop :=
  ∀ s : State, s.inputs = [] → step s = .next s

/-- A step runs the decoded command: it is `exec` of it, at the state whose events are the remaining ones; a word that
spells no command is answered with ILLEGAL and changes nothing else. -/
def Obligations.StepRunsDecodedCommand : Prop :=
  ∀ (s : State) (w : CommandWord) (rest : List Input), s.inputs = .command w :: rest →
    (∀ i, decode w = .command i → step s = exec i ⟨s.crc, rest, s.responses⟩) ∧
    (∀ why, decode w = .illegal why →
      step s = .next ⟨s.crc, rest, s.responses ++ [0x0000000100000000#64]⟩)

/-- An opcode-table word placed by `withFetchWord` is what the next step runs, on the state as it was (log entry 8). -/
def Obligations.PlacedWordRunsNext : Prop :=
  ∀ (s : State) (nbits w : Nat) (i : Instr), decodeTableWord nbits w = some i →
    step (s.withFetchWord nbits w) = exec i s

/-- No step faults or is refused, and so no run is unsafe: every error is a response (rules R82, R84; log entry 10). -/
def Obligations.StepsAndRunsNeverStop : Prop :=
  (∀ s : State, ∃ t, step s = .next t) ∧ (∀ (n : Nat) (s : State), safeRun n s)

/-- What a command leaves unchanged: the events still to come, every response given before, and CRC, unless the command
is INIT, SEED or FOLD. -/
def Obligations.ExecFrame : Prop :=
  ∀ (i : Instr) (s t : State), exec i s = .next t →
    t.inputs = s.inputs ∧ (∃ r, t.responses = s.responses ++ [r]) ∧
    (writesCrc i = false → t.crc = s.crc)

/-- CRC changes only by reset or by a word that decodes to INIT, SEED or FOLD. -/
def Obligations.CrcChangesOnlyByWritersOrReset : Prop :=
  ∀ s t : State, step s = .next t → t.crc ≠ s.crc →
    ∃ e rest, s.inputs = e :: rest ∧
      (e = .reset ∨ (∃ w, e = .resetDuring w) ∨
        ∃ w i, e = .command w ∧ decode w = .command i ∧ writesCrc i = true)

/-! ## The commands -/

/-- Rule R65: INIT writes 0xFFFFFFFF to CRC and answers it, is idempotent, changes nothing straight after reset but for
its response, and is illegal with any of bits [55:0] set. -/
def Obligations.InitSetsDefaultSeed : Prop :=
  (∀ s : State, exec .init s =
    .next ⟨0xFFFFFFFF#32, s.inputs, s.responses ++ [0x00000000FFFFFFFF#64]⟩) ∧
  exec .init State.reset = .next ⟨State.reset.crc, State.reset.inputs,
    State.reset.responses ++ [0x00000000FFFFFFFF#64]⟩ ∧
  (∀ w : CommandWord, opcField w = 0x01#8 →
    decode w = if w.extractLsb' 0 56 = 0#56 then .command .init else .illegal .reservedBit)

/-- Rule R66: SEED writes DATA to CRC and answers it, for every DATA; SEED 0xFFFFFFFF acts as INIT; SEED of a value
GETCRC answered restores that CRC; it is illegal with any of bits [55:32] set. -/
def Obligations.SeedSetsCallersSeed : Prop :=
  (∀ (d : U32) (s : State), exec (.seed d) s =
    .next ⟨d, s.inputs, s.responses ++ [0x00000000#32 ++ d]⟩) ∧
  (∀ s : State, exec (.seed 0xFFFFFFFF#32) s = exec .init s) ∧
  (∀ w : CommandWord, opcField w = 0x02#8 →
    decode w = if w.extractLsb' 32 24 = 0#24 then .command (.seed (w.extractLsb' 0 32)) else .illegal .reservedBit)

/-- Rule R68: GETCRC answers CRC and changes nothing; straight after reset it answers 0xFFFFFFFF; it is illegal with any
of bits [55:0] set. -/
def Obligations.GetcrcReadsAccumulator : Prop :=
  (∀ s : State, exec .getcrc s = .next ⟨s.crc, s.inputs, s.responses ++ [0x00000000#32 ++ s.crc]⟩) ∧
  exec .getcrc State.reset = .next ⟨0xFFFFFFFF#32, State.reset.inputs,
    State.reset.responses ++ [0x00000000FFFFFFFF#64]⟩ ∧
  (∀ w : CommandWord, opcField w = 0x03#8 →
    decode w = if w.extractLsb' 0 56 = 0#56 then .command .getcrc else .illegal .reservedBit)

/-- Rule R67: FOLD folds c3, c2, c1, c0 of a full chunk, and the padding zeros and then c0 to c(n-1) of a partial one,
each by one byte fold, writes the result to CRC and answers it. A zero chunk of any length from 0xFFFFFFFF gives
0xC704DD7B and from 0 gives 0; FOLD 4, c from c gives 0. It is illegal with any of bits [55:50] or [47:32] set. -/
def Obligations.FoldFoldsChunkIntoCrc : Prop :=
  (∀ (d : U32) (s : State),
    (let c := byteFold (byteFold (byteFold (byteFold s.crc (d.extractLsb' 24 8)) (d.extractLsb' 16 8))
        (d.extractLsb' 8 8)) (d.extractLsb' 0 8)
     exec (.fold 4 d) s = .next ⟨c, s.inputs, s.responses ++ [0x00000000#32 ++ c]⟩) ∧
    (let c := byteFold (byteFold (byteFold (byteFold s.crc 0#8) (d.extractLsb' 0 8)) (d.extractLsb' 8 8))
        (d.extractLsb' 16 8)
     exec (.fold 3 d) s = .next ⟨c, s.inputs, s.responses ++ [0x00000000#32 ++ c]⟩) ∧
    (let c := byteFold (byteFold (byteFold (byteFold s.crc 0#8) 0#8) (d.extractLsb' 0 8)) (d.extractLsb' 8 8)
     exec (.fold 2 d) s = .next ⟨c, s.inputs, s.responses ++ [0x00000000#32 ++ c]⟩) ∧
    (let c := byteFold (byteFold (byteFold (byteFold s.crc 0#8) 0#8) 0#8) (d.extractLsb' 0 8)
     exec (.fold 1 d) s = .next ⟨c, s.inputs, s.responses ++ [0x00000000#32 ++ c]⟩)) ∧
  (∀ n, 1 ≤ n → n ≤ 4 →
    processWord 0xFFFFFFFF#32 n 0#32 = 0xC704DD7B#32 ∧ processWord 0#32 n 0#32 = 0#32) ∧
  (∀ c : U32, processWord c 4 c = 0#32) ∧
  (∀ w : CommandWord, opcField w = 0x10#8 →
    decode w = if w.extractLsb' 50 6 = 0#6 ∧ w.extractLsb' 32 16 = 0#16
      then .command (.fold ((w.extractLsb' 48 2).toNat + 1) (w.extractLsb' 0 32)) else .illegal .reservedBit)

/-- FOLD is 32 steps of polynomial division of CRC XORed with the word view (rule R64, which the spec derives). -/
def Obligations.FoldDividesCrcXorWordView : Prop :=
  ∀ (n : Nat) (d : U32) (s : State), 1 ≤ n → n ≤ 4 →
    exec (.fold n d) s = .next ⟨divPow 32 (s.crc ^^^ wordView n d), s.inputs,
      s.responses ++ [0x00000000#32 ++ divPow 32 (s.crc ^^^ wordView n d)]⟩

/-- Rule R58: TBLRD answers entry INDEX8 of BuildTable(8), whatever CRC and the earlier commands are, and changes
nothing; entry 0 is 0; it is illegal with any of bits [55:8] set. -/
def Obligations.TblrdReadsEngineTable : Prop :=
  (∀ (i : Byte) (s : State), ∃ v, (buildTable 8)[i.toNat]? = some v ∧
    exec (.tblrd i) s = .next ⟨s.crc, s.inputs, s.responses ++ [0x00000000#32 ++ v]⟩) ∧
  (∀ s : State, exec (.tblrd 0x00#8) s = .next ⟨s.crc, s.inputs, s.responses ++ [0#64]⟩) ∧
  (∀ w : CommandWord, opcField w = 0x20#8 →
    decode w = if w.extractLsb' 8 48 = 0#48 then .command (.tblrd (w.extractLsb' 0 8)) else .illegal .reservedBit)

/-- Rule R59: TBLENT with a valid width and an index in its table answers the entry; with an invalid width it answers
CFG_ERR, whatever the index; with a valid width and an index outside its table RANGE_ERR; CRC never changes. At width 8
it answers as TBLRD, at width 32 every index is in the table, at width 1 only 0 and 1 are. It is illegal with any of
bits [55:54] or [47:32] set. -/
def Obligations.TblentComputesEntry : Prop :=
  (∀ (b : Nat) (i : U32) (s : State), 1 ≤ b → b ≤ 32 → i.toNat < 2 ^ b →
    exec (.tblent b i) s =
      .next ⟨s.crc, s.inputs, s.responses ++ [0x00000000#32 ++ divPow b (i <<< (32 - b))]⟩) ∧
  (∀ (b : Nat) (i : U32) (s : State), b = 0 ∨ 32 < b →
    exec (.tblent b i) s = .next ⟨s.crc, s.inputs, s.responses ++ [0x0000000200000000#64]⟩) ∧
  (∀ (b : Nat) (i : U32) (s : State), 1 ≤ b → b ≤ 32 → 2 ^ b ≤ i.toNat →
    exec (.tblent b i) s = .next ⟨s.crc, s.inputs, s.responses ++ [0x0000000300000000#64]⟩) ∧
  (∀ (i : Byte) (s : State), exec (.tblent 8 (i.setWidth 32)) s = exec (.tblrd i) s) ∧
  (∀ i : U32, i.toNat < 2 ^ 32) ∧
  (∀ s : State,
    exec (.tblent 1 0#32) s = .next ⟨s.crc, s.inputs, s.responses ++ [0x0000000000000000#64]⟩ ∧
    exec (.tblent 1 1#32) s = .next ⟨s.crc, s.inputs, s.responses ++ [0x0000000004C11DB7#64]⟩) ∧
  (∀ w : CommandWord, opcField w = 0x21#8 →
    decode w = if w.extractLsb' 54 2 = 0#2 ∧ w.extractLsb' 32 16 = 0#16
      then .command (.tblent (w.extractLsb' 48 6).toNat (w.extractLsb' 0 32)) else .illegal .reservedBit)

/-- Repeating INIT, SEED, GETCRC, TBLRD or TBLENT gives the same CRC and the same response again; repeating FOLD need not
(rule R27, which the spec derives). -/
def Obligations.CommandsButFoldAreIdempotent : Prop :=
  (∀ (i : Instr) (s t : State), (∀ n d, i ≠ .fold n d) → exec i s = .next t →
    ∃ r, t.responses = s.responses ++ [r] ∧ exec i t = .next ⟨t.crc, t.inputs, t.responses ++ [r]⟩) ∧
  (∃ n d, ∃ s t u : State, exec (.fold n d) s = .next t ∧ exec (.fold n d) t = .next u ∧ u.crc ≠ t.crc)

/-! ## Responses and errors -/

/-- Rule R48: every command gets exactly one response word, made of 30 zero bits, STAT and RDATA; a reset gets none. -/
def Obligations.OneResponsePerCommand : Prop :=
  ∀ (s t : State) (e : Input) (rest : List Input), s.inputs = e :: rest → step s = .next t →
    t.inputs = rest ∧
    ((∃ w, e = .command w) → ∃ (st : BitVec 2) (d : U32), t.responses = s.responses ++ [0#30 ++ st ++ d] ∧
      0#30 ++ st ++ d = (st.setWidth 64 <<< 32) ||| d.setWidth 64) ∧
    ((∀ w, e ≠ .command w) → t.responses = s.responses)

/-- Rules R77 to R80 and R83: STAT of a command's response is 1 exactly when the word spells no command, 2 exactly for
TBLENT with width 0 or above 32, 3 exactly for TBLENT with a valid width and an index of 2^b or more, and 0 in every
other case: one cause is reported, in that priority. -/
def Obligations.StatusReportsTheFirstCause : Prop :=
  ∀ (s : State) (w : CommandWord) (rest : List Input), s.inputs = .command w :: rest →
    ∃ t r, step s = .next t ∧ t.responses = s.responses ++ [r] ∧
      (statOf r = 1#2 ↔ ∃ why, decode w = .illegal why) ∧
      (statOf r = 2#2 ↔ ∃ b i, decode w = .command (.tblent b i) ∧ (b = 0 ∨ 32 < b)) ∧
      (statOf r = 3#2 ↔ ∃ b i, decode w = .command (.tblent b i) ∧ 1 ≤ b ∧ b ≤ 32 ∧ 2 ^ b ≤ i.toNat) ∧
      (statOf r = 0#2 ↔ ∃ i, decode w = .command i ∧
        ∀ b j, i = .tblent b j → 1 ≤ b ∧ b ≤ 32 ∧ j.toNat < 2 ^ b)

/-- Rule R82: a command that answers an error leaves CRC and everything else as it was, has RDATA 0, and the block takes
the next command. -/
def Obligations.ErrorsWriteNoState : Prop :=
  ∀ (s t : State) (w : CommandWord) (rest : List Input) (r : ResponseWord),
    s.inputs = .command w :: rest → step s = .next t → t.responses = s.responses ++ [r] → statOf r ≠ 0#2 →
    t = ⟨s.crc, rest, s.responses ++ [r]⟩ ∧ rdataOf r = 0#32

/-- The invariant: every response has bits [63:34] zero, and RDATA 0 if its STAT is not OK. Every step keeps it. -/
def Obligations.StepKeepsResponsesWellFormed : Prop :=
  ∀ s t : State, responsesOk s → step s = .next t → responsesOk t

/-- The invariant holds right after reset. -/
def Obligations.ResetResponsesWellFormed : Prop :=
  responsesOk State.reset

/-! ## Encoding -/

/-- Decoding the encoding of a well-formed command gives it back, with every operand at every value. -/
def Obligations.DecodeEncodeRoundTrip : Prop :=
  ∀ i : Instr, i.wf = true → decode (encode i) = .command i

/-- A word that decodes to a command is that command's encoding, and the command is well formed: no command has two
words. -/
def Obligations.EncodeDecodeRoundTrip : Prop :=
  ∀ (w : CommandWord) (i : Instr), decode w = .command i → i.wf = true ∧ encode i = w

/-- Rule R45: a word decodes to a command exactly when a row of the opcode table selects it, the command is that row's,
at most one row selects a word, and a word none selects raises IllegalCommand. -/
def Obligations.DecodeAgreesWithOpcodeTable : Prop :=
  (∀ (w : CommandWord) (i : Instr), decode w = .command i → i.row ∈ opcodeTable ∧ i.row.selects w) ∧
  (∀ (w : CommandWord) (r : OpcodeRow), r ∈ opcodeTable → r.selects w → ∃ i, decode w = .command i ∧ i.row = r) ∧
  (∀ (w : CommandWord) (r q : OpcodeRow), r ∈ opcodeTable → q ∈ opcodeTable → r.selects w → q.selects w → r = q) ∧
  (∀ (w : CommandWord) (s : State) (rest : List Input), (∀ r ∈ opcodeTable, ¬ r.selects w) →
    s.inputs = .command w :: rest →
    step s = .next ⟨s.crc, rest, s.responses ++ [0x0000000100000000#64]⟩)

/-- Rule R46: a word with a reserved OPC, or with a defined one and a bit set that its format reserves, leaves the state
unchanged and answers ILLEGAL; the all-zero word is one of them. -/
def Obligations.ReservedWordsAnswerIllegal : Prop :=
  (∀ (s : State) (w : CommandWord) (rest : List Input), s.inputs = .command w :: rest →
    (let opc := (w.extractLsb' 56 8).toNat
     (opc = 0x00 ∨ (0x04 ≤ opc ∧ opc ≤ 0x0F) ∨ (0x11 ≤ opc ∧ opc ≤ 0x1F) ∨ 0x22 ≤ opc) ∨
     ((opc = 0x01 ∨ opc = 0x03) ∧ w.extractLsb' 0 56 ≠ 0#56) ∨
     (opc = 0x02 ∧ w.extractLsb' 32 24 ≠ 0#24) ∨
     (opc = 0x10 ∧ (w.extractLsb' 50 6 ≠ 0#6 ∨ w.extractLsb' 32 16 ≠ 0#16)) ∨
     (opc = 0x20 ∧ w.extractLsb' 8 48 ≠ 0#48) ∨
     (opc = 0x21 ∧ (w.extractLsb' 54 2 ≠ 0#2 ∨ w.extractLsb' 32 16 ≠ 0#16))) →
    step s = .next ⟨s.crc, rest, s.responses ++ [0x0000000100000000#64]⟩) ∧
  (∀ (s : State) (rest : List Input), s.inputs = .command 0#64 :: rest →
    step s = .next ⟨s.crc, rest, s.responses ++ [0x0000000100000000#64]⟩)

/-- Rules R38 to R42: the fields of each format, bit for bit. -/
def Obligations.FormatsPlaceFields : Prop :=
  encode .init = 0x01#8 ++ 0#56 ∧
  encode .getcrc = 0x03#8 ++ 0#56 ∧
  (∀ d : U32, encode (.seed d) = 0x02#8 ++ 0#24 ++ d) ∧
  (∀ (n : Nat) (d : U32), 1 ≤ n → n ≤ 4 →
    encode (.fold n d) = 0x10#8 ++ 0#6 ++ BitVec.ofNat 2 (n - 1) ++ 0#16 ++ d) ∧
  (∀ (b : Nat) (i : U32), b ≤ 63 → encode (.tblent b i) = 0x21#8 ++ 0#2 ++ BitVec.ofNat 6 b ++ 0#16 ++ i) ∧
  (∀ i : Byte, encode (.tblrd i) = 0x20#8 ++ 0#48 ++ i)

/-- Words written out from the formats decode to their commands. -/
def Obligations.KnownWordsDecode : Prop :=
  decode 0x0100000000000000#64 = .command .init ∧
  decode 0x02000000C2091428#64 = .command (.seed 0xC2091428#32) ∧
  decode 0x0300000000000000#64 = .command .getcrc ∧
  decode 0x1000000000000039#64 = .command (.fold 1 0x39#32) ∧
  decode 0x1003000034333231#64 = .command (.fold 4 0x34333231#32) ∧
  decode 0x2000000000000080#64 = .command (.tblrd 0x80#8) ∧
  decode 0x2110000000008000#64 = .command (.tblent 16 0x8000#32) ∧
  decode 0x213F000000000000#64 = .command (.tblent 63 0#32) ∧
  decode 0x2140000000000000#64 = .illegal .reservedBit ∧
  decode 0x0000000000000000#64 = .illegal .reservedOpcode

/-! ## The table -/

/-- Rule R53: BuildTable(b) is the sequence of the 2^b entries in increasing index, and the engine's table is
BuildTable(8). -/
def Obligations.BuildTableListsEntries : Prop :=
  (∀ b, 1 ≤ b → b ≤ 32 → (buildTable b).length = 2 ^ b ∧
    ∀ i, i < 2 ^ b → (buildTable b)[i]? = some (divPow b (BitVec.ofNat 32 i <<< (32 - b)))) ∧
  (∀ i : Byte, (buildTable 8)[i.toNat]? = some (tbl i)) ∧ (buildTable 8).length = 256

/-- Rule R56: at every valid width, entry 0 is 0 and entry 1 is POLY. -/
def Obligations.BoundaryEntries : Prop :=
  ∀ b, 1 ≤ b → b ≤ 32 → tableEntry b 0#32 = 0x00000000#32 ∧ tableEntry b 1#32 = 0x04C11DB7#32

/-- The division step, and so the table entry, is linear over XOR (rule R57 item 1, which the spec derives). -/
def Obligations.TableEntryIsLinear : Prop :=
  (∀ x y : U32, divStep (x ^^^ y) = divStep x ^^^ divStep y) ∧
  (∀ (b : Nat) (i j : U32), 1 ≤ b → b ≤ 32 → i.toNat < 2 ^ b → j.toNat < 2 ^ b →
    tableEntry b (i ^^^ j) = tableEntry b i ^^^ tableEntry b j)

/-- The division step is a bijection, the entries of a table are distinct, and so are the top bytes of the engine's
table (rule R57 item 2, which the spec derives). -/
def Obligations.TableEntriesAreDistinct : Prop :=
  Function.Bijective divStep ∧
  (∀ (b : Nat) (i j : U32), 1 ≤ b → b ≤ 32 → i.toNat < 2 ^ b → j.toNat < 2 ^ b →
    tableEntry b i = tableEntry b j → i = j) ∧
  (∀ i j : Byte, (tbl i).extractLsb' 24 8 = (tbl j).extractLsb' 24 8 → i = j)

/-- A narrow table is a prefix of a wider one, and of the engine's table up to width 8 (rule R57 item 3, which the spec
derives). -/
def Obligations.NarrowTableIsPrefixOfWider : Prop :=
  (∀ (b b' : Nat) (i : U32), 1 ≤ b → b ≤ b' → b' ≤ 32 → i.toNat < 2 ^ b → tableEntry b i = tableEntry b' i) ∧
  (∀ b b' : Nat, 1 ≤ b → b ≤ b' → b' ≤ 32 → buildTable b <+: buildTable b')

/-- A byte fold is eight division steps (rule R63, which the spec derives). -/
def Obligations.ByteFoldIsEightDivisionSteps : Prop :=
  ∀ (c : U32) (b : Byte), byteFold c b = divPow 8 (c ^^^ (b.setWidth 32 <<< 24))

/-! ## Chunks -/

/-- Rules R21, R22 and R61: the order in which a chunk's bytes are consumed, and that the lanes n to 3 of a partial chunk
are never read. -/
def Obligations.ConsumptionOrder : Prop :=
  (∀ d : U32,
    consumeSeq 4 d = [d.extractLsb' 24 8, d.extractLsb' 16 8, d.extractLsb' 8 8, d.extractLsb' 0 8] ∧
    consumeSeq 3 d = [0#8, d.extractLsb' 0 8, d.extractLsb' 8 8, d.extractLsb' 16 8] ∧
    consumeSeq 2 d = [0#8, 0#8, d.extractLsb' 0 8, d.extractLsb' 8 8] ∧
    consumeSeq 1 d = [0#8, 0#8, 0#8, d.extractLsb' 0 8]) ∧
  (∀ (n : Nat) (d d' : U32) (s : State), 1 ≤ n → n ≤ 4 →
    (∀ j, j < n → d.extractLsb' (8 * j) 8 = d'.extractLsb' (8 * j) 8) →
    consumeSeq n d = consumeSeq n d' ∧ exec (.fold n d) s = exec (.fold n d') s)

/-- The bytes of the word view, most significant first, are the bytes consumed (rule R23, which the spec derives). -/
def Obligations.WordViewBytesAreConsumed : Prop :=
  ∀ (n : Nat) (d : U32), 1 ≤ n → n ≤ 4 →
    consumeSeq n d = [(wordView n d).extractLsb' 24 8, (wordView n d).extractLsb' 16 8,
      (wordView n d).extractLsb' 8 8, (wordView n d).extractLsb' 0 8]

/-- Rule R19: the chunks of a buffer of L bytes are its ceil(L/4) consecutive pieces of 4 bytes, in order, the last with
what is left. -/
def Obligations.ChunksPartitionBuffer : Prop :=
  ∀ buffer : List Byte,
    (chunks buffer).length = (buffer.length + 3) / 4 ∧ (chunks buffer).flatten = buffer ∧
    (∀ k, k < (buffer.length + 3) / 4 → (chunks buffer)[k]? = some ((buffer.drop (4 * k)).take 4)) ∧
    (∀ c ∈ chunks buffer, 1 ≤ c.length ∧ c.length ≤ 4)

/-- Rule R20: a chunk of n bytes is carried by FOLD n with byte j in lane j; a full chunk's DATA is its little-endian
value. -/
def Obligations.ChunkBytesSitInLanes : Prop :=
  (∀ chunk : List Byte, 1 ≤ chunk.length → chunk.length ≤ 4 →
    ∃ d, foldb chunk = .fold chunk.length d ∧
      ∀ j, j < chunk.length → chunk[j]? = some (d.extractLsb' (8 * j) 8)) ∧
  (∀ c0 c1 c2 c3 : Byte, foldb [c0, c1, c2, c3] =
    .fold 4 (c0.setWidth 32 ||| c1.setWidth 32 <<< 8 ||| c2.setWidth 32 <<< 16 ||| c3.setWidth 32 <<< 24))

/-! ## Entry points and runs -/

/-- Rule R69: from any state, the command sequence COMPUTE seed, buffer runs to its end with every response OK, leaves
CRC at Compute(seed, buffer), and its GETCRC answers that value. -/
def Obligations.ComputeSequenceRefinesCompute : Prop :=
  ∀ (s : State) (seed : U32) (buffer : List Byte) (rest : List Input),
    s.inputs = deliver (computeCommands seed buffer) ++ rest →
    ∃ rs, rs.length = (chunks buffer).length + 1 ∧ clean rs ∧
      runSteps ((chunks buffer).length + 2) s =
        .next ⟨compute seed buffer, rest, s.responses ++ rs ++ [responseWord .ok (compute seed buffer)]⟩

/-- Rule R70: crc32 is compute with seed 0xFFFFFFFF, and the sequence CRC32, with INIT for the SEED, runs as COMPUTE
0xFFFFFFFF does. -/
def Obligations.Crc32IsComputeWithDefaultSeed : Prop :=
  (∀ buffer : List Byte, crc32 buffer = compute 0xFFFFFFFF#32 buffer) ∧
  (∀ (s : State) (buffer : List Byte) (rest : List Input) (k : Nat), 1 ≤ k →
    runSteps k (setInputs (deliver (crc32Commands buffer) ++ rest) s) =
      runSteps k (setInputs (deliver (computeCommands 0xFFFFFFFF#32 buffer) ++ rest) s))

/-- Rule R71: an empty buffer returns the seed, and its sequence has no FOLD. -/
def Obligations.EmptyBufferReturnsSeed : Prop :=
  (∀ seed : U32, compute seed [] = seed ∧ computeCommands seed [] = [.seed seed, .getcrc]) ∧
  crc32 [] = 0xFFFFFFFF#32 ∧ crc32Commands [] = [.init, .getcrc]

/-- Rule R72: BUILDTABLE at a valid width answers OK with the entries of BuildTable in order and leaves CRC alone, and at
an invalid one its first command answers CFG_ERR and the host reports ConfigurationError; for width 8 reading the engine's
table answers the same. -/
def Obligations.BuildTableSequenceReadsTable : Prop :=
  (∀ (s : State) (b : Nat) (rest : List Input), 1 ≤ b → b ≤ 32 →
    s.inputs = deliver (buildTableCommands b) ++ rest →
    ∃ rs, runSteps (2 ^ b) s = .next ⟨s.crc, rest, s.responses ++ rs⟩ ∧ clean rs ∧
      buildTableResult rs = .ok (buildTable b)) ∧
  (∀ (s : State) (rest : List Input), s.inputs = deliver readTableCommands ++ rest →
    ∃ rs, runSteps 256 s = .next ⟨s.crc, rest, s.responses ++ rs⟩ ∧ clean rs ∧
      buildTableResult rs = .ok (buildTable 8)) ∧
  (∀ (s : State) (b : Nat) (rest : List Input), b = 0 ∨ (32 < b ∧ b ≤ 63) →
    s.inputs = deliver (buildTableCommands b) ++ rest →
    ∃ t r, step s = .next t ∧ t.crc = s.crc ∧ t.responses = s.responses ++ [r] ∧ statOf r = 2#2 ∧
      ∀ rs, buildTableResult (r :: rs) = .error .configurationError)

/-- Feeding each piece's result as the next one's seed gives the value of the whole buffer, if every non-empty piece
except the last non-empty one has a length that is a multiple of 4 (rule R73, which the spec derives). -/
def Obligations.AlignedChaining : Prop :=
  ∀ (seed : U32) (pieces : List (List Byte)),
    (∀ before p after, pieces = before ++ p :: after → (∃ q ∈ after, q ≠ []) → p.length % 4 = 0) →
    pieces.foldl compute seed = compute seed pieces.flatten

/-- An unaligned split carries no guarantee: the spec's example gives two different values (rule R74, which the spec
derives). -/
def Obligations.UnalignedChainingExample : Prop :=
  compute (compute 0xFFFFFFFF#32 [0x31#8, 0x32#8, 0x33#8, 0x34#8, 0x35#8]) [0x36#8, 0x37#8, 0x38#8, 0x39#8]
    = 0xE447EFEB#32 ∧
  crc32 [0x31#8, 0x32#8, 0x33#8, 0x34#8, 0x35#8, 0x36#8, 0x37#8, 0x38#8, 0x39#8] = 0xAFF19057#32

/-- The behaviour of the block depends on its past only through CRC: two states with the same CRC and the same events to
come run to the same CRC and give the same new responses. -/
def Obligations.BehaviourDependsOnlyOnCrc : Prop :=
  ∀ (n : Nat) (s s' : State), s.crc = s'.crc → s.inputs = s'.inputs →
    ∃ (c : U32) (es : List Input) (rs : List ResponseWord),
      runSteps n s = .next ⟨c, es, s.responses ++ rs⟩ ∧
      runSteps n s' = .next ⟨c, es, s'.responses ++ rs⟩

/-- A host resumes a computation by SEED with the saved CRC: whatever happened since, the rest of the computation then
gives the CRC and the responses of the uninterrupted run (rule R75, which the spec derives). -/
def Obligations.SeedResumesSavedComputation : Prop :=
  ∀ (n : Nat) (s s' : State) (w : CommandWord), w = encode (.seed s.crc) → s'.inputs = .command w :: s.inputs →
    ∃ (c : U32) (es : List Input) (rs : List ResponseWord),
      runSteps n s = .next ⟨c, es, s.responses ++ rs⟩ ∧
      runSteps (n + 1) s' = .next ⟨c, es, s'.responses ++ [responseWord .ok s.crc] ++ rs⟩

/-- A computation's result, the RDATA of the GETCRC that ends it, is also the RDATA of the last INIT, SEED or FOLD before
it, and the CRC it leaves. -/
def Obligations.ComputationResultIsLastWritersResponse : Prop :=
  ∀ (s : State) (commands : List Instr) (rest : List Input), isComputation commands →
    (∀ i ∈ commands, i.wf = true) → s.inputs = deliver commands ++ rest →
    ∃ before i middle rs rs' r t, commands = before ++ i :: (middle ++ [.getcrc]) ∧ writesCrc i = true ∧
      (∀ j ∈ middle, writesCrc j = false) ∧ rs.length = before.length ∧ rs'.length = middle.length ∧
      runSteps commands.length s = .next t ∧
      t.responses = s.responses ++ rs ++ [r] ++ rs' ++ [r] ∧ rdataOf r = t.crc ∧ statOf r = 0#2 ∧ t.inputs = rest

/-- Every event is taken, in order, in one step each: after k steps, k up to the number of events, exactly the first k
are taken, one response was given for each command among them that completed, and those given before stand; so after as
many steps as there are events none is left and each command has its one response. That a command completes, and in one step, is the
model's choice (log entry 15): the spec rests it on the fairness rule R100 assumes. -/
def Obligations.EveryCommandIsAnsweredOnce : Prop :=
  ∀ (s : State) (k : Nat), k ≤ s.inputs.length → ∃ (c : U32) (rs : List ResponseWord),
    runSteps k s = .next ⟨c, s.inputs.drop k, s.responses ++ rs⟩ ∧ rs.length = commandCount (s.inputs.take k)

/-- A buffer of L bytes costs ceil(L/4) FOLD commands of four byte folds each (rule R100). -/
def Obligations.FoldsPerBuffer : Prop :=
  ∀ (seed : U32) (buffer : List Byte), ∃ folds : List Instr,
    computeCommands seed buffer = .seed seed :: (folds ++ [.getcrc]) ∧ folds.length = (buffer.length + 3) / 4 ∧
    ∀ i ∈ folds, ∃ n d, i = .fold n d ∧ i.wf = true ∧ (consumeSeq n d).length = 4

/-! ## The host's text and its checks -/

/-- The assembler's lines are words that decode to their commands, partial FOLDs with zero in the unused lanes (rule R49,
in the reading of log entry 12), and lines that have no encoding are rejected: FOLD with n outside 1 to 4 and TBLENT above
width 63 by rule R49, FOLDB of no or more than four bytes by rule R50, an operand too large for its field and the same for
FOLDB, COMPUTE and BUILDTABLE by the model's reading (log entries 13 and 17). -/
def Obligations.AssembledLinesDecode : Prop :=
  (∃ w, assemble .init = some [w] ∧ decode w = .command .init) ∧
  (∃ w, assemble .getcrc = some [w] ∧ decode w = .command .getcrc) ∧
  (∀ v, v < 2 ^ 32 → ∃ w, assemble (.seed v) = some [w] ∧ decode w = .command (.seed (BitVec.ofNat 32 v))) ∧
  (∀ n v, 1 ≤ n → n ≤ 4 → v < 2 ^ 32 → ∃ w d, assemble (.fold n v) = some [w] ∧ decode w = .command (.fold n d) ∧
    (∀ j, j < n → d.extractLsb' (8 * j) 8 = (BitVec.ofNat 32 v).extractLsb' (8 * j) 8) ∧
    (∀ j, n ≤ j → j < 4 → d.extractLsb' (8 * j) 8 = 0#8)) ∧
  (∀ v, v < 256 → ∃ w, assemble (.tblrd v) = some [w] ∧ decode w = .command (.tblrd (BitVec.ofNat 8 v))) ∧
  (∀ b v, b ≤ 63 → v < 2 ^ 32 →
    ∃ w, assemble (.tblent b v) = some [w] ∧ decode w = .command (.tblent b (BitVec.ofNat 32 v))) ∧
  (∀ n v, n = 0 ∨ 4 < n → assemble (.fold n v) = none) ∧
  (∀ b v, 63 < b → assemble (.tblent b v) = none) ∧
  (∀ v, 2 ^ 32 ≤ v → assemble (.seed v) = none ∧ (∀ n, assemble (.fold n v) = none) ∧
    (∀ b, assemble (.tblent b v) = none) ∧ ∀ buffer, assemble (.compute v buffer) = none) ∧
  (∀ v, 256 ≤ v → assemble (.tblrd v) = none) ∧
  (∀ bytes, bytes.length = 0 ∨ 4 < bytes.length ∨ (∃ v ∈ bytes, 256 ≤ v) → assemble (.foldb bytes) = none) ∧
  (∀ bits, 63 < bits → assemble (.buildtable bits) = none)

/-- Rule R50's pseudo-instructions: FOLDB packs its one to four bytes, and COMPUTE, CRC32 and BUILDTABLE are the host
sequences of their rules. BUILDTABLE's commands are stated for every index that an INDEX field holds, and their number
for the widths at which every index is one; what the list has beyond is the model's choice (log entry 17). -/
def Obligations.PseudoInstructionsExpand : Prop :=
  (∀ c0 : Byte, expand (.foldb [c0.toNat]) = some [.fold 1 (c0.setWidth 32)]) ∧
  (∀ c0 c1 : Byte, expand (.foldb [c0.toNat, c1.toNat]) =
    some [.fold 2 (c0.setWidth 32 ||| c1.setWidth 32 <<< 8)]) ∧
  (∀ c0 c1 c2 : Byte, expand (.foldb [c0.toNat, c1.toNat, c2.toNat]) =
    some [.fold 3 (c0.setWidth 32 ||| c1.setWidth 32 <<< 8 ||| c2.setWidth 32 <<< 16)]) ∧
  (∀ c0 c1 c2 c3 : Byte, expand (.foldb [c0.toNat, c1.toNat, c2.toNat, c3.toNat]) =
    some [.fold 4 (c0.setWidth 32 ||| c1.setWidth 32 <<< 8 ||| c2.setWidth 32 <<< 16 ||| c3.setWidth 32 <<< 24)]) ∧
  (∀ (seed : U32) (buffer : List Byte), expand (.compute seed.toNat buffer) =
    some (.seed seed :: ((chunks buffer).map foldb ++ [.getcrc]))) ∧
  (∀ buffer : List Byte, expand (.crc32 buffer) = some (.init :: ((chunks buffer).map foldb ++ [.getcrc]))) ∧
  (∀ bits, bits ≤ 63 → ∃ commands, expand (.buildtable bits) = some commands ∧
    (bits ≤ 32 → commands.length = 2 ^ bits) ∧
    ∀ i, i < 2 ^ bits → i < 2 ^ 32 → commands[i]? = some (.tblent bits (BitVec.ofNat 32 i)))

/-- The host's check: a logical buffer with a value above 255 is rejected with ValueError, and any other is its bytes
(rule R81; the host's side, log entry 14). -/
def Obligations.HostRejectsNonBytes : Prop :=
  (∀ buffer : List Nat, (∃ v ∈ buffer, 255 < v) → hostBytes buffer = .error .valueError) ∧
  (∀ buffer : List Byte, hostBytes (buffer.map BitVec.toNat) = .ok buffer)

/-- For build_table(bits) at a width that has an encoding the host sends BUILDTABLE, 2^bits commands at a valid width,
each one that has an encoding; at a width above 63 it sends none and reports ConfigurationError, the model's choice (log entry 17). -/
def Obligations.TableRequestSendsOnlyEncodableCommands : Prop :=
  (∀ bits, bits ≤ 63 → requestTable bits = .ok (buildTableCommands bits) ∧
    (1 ≤ bits → bits ≤ 32 → (buildTableCommands bits).length = 2 ^ bits) ∧
    ∀ i ∈ buildTableCommands bits, decode (encode i) = .command i) ∧
  (∀ bits, 63 < bits → requestTable bits = .error .configurationError)
end

