-- ==== Sys2Proof/Laws/Division.lean ====
section
/-! SUPPORT. The small lemmas of the division step and of the chunk's lanes (rules R51, R61). -/

namespace Sys2Proof.Machine

@[simp] theorem divPow_zero (x : U32) : divPow 0 x = x := rfl
theorem divPow_succ (k : Nat) (x : U32) : divPow (k + 1) x = divPow k (divStep x) := rfl

/-- j steps and then k steps are j + k steps. -/
theorem divPow_add (j k : Nat) (x : U32) : divPow (j + k) x = divPow k (divPow j x) := by
  induction j generalizing x with
  | zero => rw [Nat.zero_add, divPow_zero]
  | succ j ih => rw [Nat.succ_add, divPow_succ, divPow_succ, ih]

/-- A step on a value with a clear top bit only shifts. -/
theorem divStep_of_top_clear {x : U32} (h : x.getLsbD 31 = false) : divStep x = x <<< 1 := by
  simp only [divStep, h, Bool.false_eq_true, if_false]

/-- A step on a value with a set top bit shifts and XORs the polynomial. -/
theorem divStep_of_top_set {x : U32} (h : x.getLsbD 31 = true) : divStep x = (x <<< 1) ^^^ Config.poly := by
  simp only [divStep, h, if_true]

theorem tableEntry_def (b : Nat) (i : U32) : tableEntry b i = divPow b (i <<< (32 - b)) := rfl

theorem processWord_of_consumeSeq {n : Nat} {d : U32} {q1 q2 q3 q4 : Byte} (h : consumeSeq n d = [q1, q2, q3, q4])
    (c : U32) : processWord c n d = byteFold (byteFold (byteFold (byteFold c q1) q2) q3) q4 := by
  simp only [processWord, h, List.foldl_cons, List.foldl_nil]

end Sys2Proof.Machine
end

