-- ==== Sys2Proof/Laws/Fields.lean ====
section
/-! SUPPORT. The fields of the words the encoder writes (30_encoding.md rules R37, R49). -/

namespace Sys2Proof

section
variable (opc : BitVec 8) (bits : BitVec 6) (lenm1 : BitVec 2) (data : U32)

/-- A packed word bit by bit: DATA below bit 32, zeros below 48, BITS or LENM1 below 56, OPC above. -/
theorem getLsbD_packFields (j : Nat) : (packFields opc bits lenm1 data).getLsbD j =
    if j < 32 then data.getLsbD j else if j < 48 then false
    else if j < 56 then bits.getLsbD (j - 48) || lenm1.getLsbD (j - 48) else opc.getLsbD (j - 56) := by
  have hj : j < 32 ∨ (32 ≤ j ∧ j < 48) ∨ (48 ≤ j ∧ j < 56) ∨ (56 ≤ j ∧ j < 64) ∨ 64 ≤ j := by omega
  rcases hj with h | ⟨h, h'⟩ | ⟨h, h'⟩ | ⟨h, h'⟩ | h
  · simp [packFields, h, show j < 64 by omega, show j < 48 by omega, show j < 56 by omega]
  · simp [packFields, h', show j < 64 by omega, show j < 56 by omega, show ¬ j < 32 by omega,
      BitVec.getLsbD_of_ge data j (by omega)]
  · simp [packFields, h', show j < 64 by omega, show ¬ j < 48 by omega, show ¬ j < 32 by omega,
      BitVec.getLsbD_of_ge data j (by omega)]
  · simp [packFields, h', show ¬ j < 56 by omega, show ¬ j < 48 by omega, show ¬ j < 32 by omega,
      BitVec.getLsbD_of_ge data j (by omega),
      BitVec.getLsbD_of_ge bits (j - 48) (by omega), BitVec.getLsbD_of_ge lenm1 (j - 48) (by omega)]
  · simp [packFields, show ¬ j < 64 by omega, show ¬ j < 56 by omega, show ¬ j < 48 by omega,
      show ¬ j < 32 by omega, BitVec.getLsbD_of_ge data j (by omega), BitVec.getLsbD_of_ge opc (j - 56) (by omega)]

@[simp] theorem opcField_packFields : opcField (packFields opc bits lenm1 data) = opc := by
  refine BitVec.eq_of_getLsbD_eq fun j hj => ?_
  simp [opcField, getLsbD_packFields, hj, show ¬ 56 + j < 32 by omega, show ¬ 56 + j < 48 by omega,
    show ¬ 56 + j < 56 by omega]

@[simp] theorem bitsField_packFields : bitsField (packFields opc bits lenm1 data) = bits ||| lenm1.setWidth 6 := by
  refine BitVec.eq_of_getLsbD_eq fun j hj => ?_
  simp [bitsField, getLsbD_packFields, hj, show ¬ 48 + j < 32 by omega, show ¬ 48 + j < 48 by omega,
    show 48 + j < 56 by omega]

@[simp] theorem lenm1Field_packFields : lenm1Field (packFields opc bits lenm1 data) = bits.setWidth 2 ||| lenm1 := by
  refine BitVec.eq_of_getLsbD_eq fun j hj => ?_
  simp [lenm1Field, getLsbD_packFields, hj, show ¬ 48 + j < 32 by omega, show ¬ 48 + j < 48 by omega,
    show 48 + j < 56 by omega]

@[simp] theorem dataField_packFields : dataField (packFields opc bits lenm1 data) = data := by
  refine BitVec.eq_of_getLsbD_eq fun j hj => ?_
  simp [dataField, getLsbD_packFields, hj]

@[simp] theorem index8Field_packFields : index8Field (packFields opc bits lenm1 data) = data.setWidth 8 := by
  refine BitVec.eq_of_getLsbD_eq fun j hj => ?_
  simp [index8Field, getLsbD_packFields, hj, show j < 32 by omega]

end

/-- Words are equal if they agree bit by bit under a mask: what it takes for a row to select a word. -/
theorem OpcodeRow.selects_iff (r : OpcodeRow) (w : CommandWord) :
    r.selects w ↔ ∀ j, j < 64 → (w.getLsbD j && r.mask.getLsbD j) = r.matchBits.getLsbD j := by
  constructor
  · intro h j _
    rw [← BitVec.getLsbD_and, show w &&& r.mask = r.matchBits from h]
  · intro h
    refine BitVec.eq_of_getLsbD_eq fun j hj => ?_
    rw [BitVec.getLsbD_and, h j hj]

end Sys2Proof
end

