-- ==== Sys2Proof/Laws/Response.lean ====
section
/-! SUPPORT. The fields of a response word (30_encoding.md rule R48). -/

namespace Sys2Proof.Machine

/-- A response bit by bit: RDATA below bit 32, STAT above it. -/
theorem getLsbD_responseWord (st : Status) (d : U32) (j : Nat) : (responseWord st d).getLsbD j =
    if j < 32 then d.getLsbD j else (statCode st).getLsbD (j - 32) := by
  have hd : 32 ≤ j → d.getLsbD j = false := BitVec.getLsbD_of_ge _ _
  have hs : 34 ≤ j → (statCode st).getLsbD (j - 32) = false := fun h => BitVec.getLsbD_of_ge _ _ (by omega)
  have hw : j < 32 ∨ (32 ≤ j ∧ j < 64) ∨ 64 ≤ j := by omega
  rcases hw with h | ⟨h, h'⟩ | h
  · simp [responseWord, h, show j < 64 by omega]
  · simp [responseWord, hd h, h', Nat.not_lt.2 h]
  · simp [responseWord, Nat.not_lt.2 h, hd (by omega), hs (by omega), show ¬ j < 32 by omega]

@[simp] theorem statOf_responseWord (st : Status) (d : U32) : statOf (responseWord st d) = statCode st := by
  refine BitVec.eq_of_getLsbD_eq fun j hj => ?_
  simp [statOf, getLsbD_responseWord, hj]

@[simp] theorem rdataOf_responseWord (st : Status) (d : U32) : rdataOf (responseWord st d) = d := by
  refine BitVec.eq_of_getLsbD_eq fun j hj => ?_
  simp [rdataOf, getLsbD_responseWord, hj]

@[simp] theorem upperOf_responseWord (st : Status) (d : U32) : upperOf (responseWord st d) = 0#30 := by
  refine BitVec.eq_of_getLsbD_eq fun j hj => ?_
  simp [upperOf, getLsbD_responseWord, show ¬ 34 + j < 32 by omega,
    BitVec.getLsbD_of_ge (statCode st) (34 + j - 32) (by omega)]

/-- A response as its three fields, most significant first. -/
theorem responseWord_eq_append (st : Status) (d : U32) : responseWord st d = 0#30 ++ statCode st ++ d := by
  refine BitVec.eq_of_getLsbD_eq fun j _ => ?_
  rw [getLsbD_responseWord]
  refine Eq.trans ?_ (BitVec.getLsbD_append (x := (0#30 ++ statCode st)) (y := d)).symm
  by_cases h : j < 32
  · simp [h]
  · have : (0#30 ++ statCode st).getLsbD (j - 32) = (statCode st).getLsbD (j - 32) := by
      rw [BitVec.getLsbD_append]
      by_cases h2 : j - 32 < 2
      · simp [h2]
      · simp [h2, BitVec.getLsbD_of_ge (statCode st) (j - 32) (by omega)]
    simp [h, this]

/-- A command's OK response: RDATA above which everything is zero. -/
theorem responseWord_ok (d : U32) : responseWord .ok d = 0x00000000#32 ++ d := responseWord_eq_append .ok d

theorem statCode_injective {a b : Status} (h : statCode a = statCode b) : a = b := by
  cases a <;> cases b <;> first | rfl | exact absurd h (by decide)

end Sys2Proof.Machine
end

