-- ==== Sys2Proof/Laws/State.lean ====
section
/-! SUPPORT. One lemma per field of State and per update of it, so that no proof unfolds a record update. -/

namespace Sys2Proof.Machine

@[simp] theorem readCrc_eq (s : State) : readCrc s = s.crc := rfl

@[simp] theorem writeCrc_crc (v : U32) (s : State) : (writeCrc v s).crc = v := rfl
@[simp] theorem writeCrc_inputs (v : U32) (s : State) : (writeCrc v s).inputs = s.inputs := rfl
@[simp] theorem writeCrc_responses (v : U32) (s : State) : (writeCrc v s).responses = s.responses := rfl

@[simp] theorem respond_crc (st : Status) (d : U32) (s : State) : (respond st d s).crc = s.crc := rfl
@[simp] theorem respond_inputs (st : Status) (d : U32) (s : State) : (respond st d s).inputs = s.inputs := rfl
@[simp] theorem respond_responses (st : Status) (d : U32) (s : State) :
    (respond st d s).responses = s.responses ++ [responseWord st d] := rfl

@[simp] theorem setInputs_crc (es : List Input) (s : State) : (setInputs es s).crc = s.crc := rfl
@[simp] theorem setInputs_inputs (es : List Input) (s : State) : (setInputs es s).inputs = es := rfl
@[simp] theorem setInputs_responses (es : List Input) (s : State) :
    (setInputs es s).responses = s.responses := rfl

@[simp] theorem deliverNext_crc (w : CommandWord) (s : State) : (deliverNext w s).crc = s.crc := rfl
@[simp] theorem deliverNext_inputs (w : CommandWord) (s : State) :
    (deliverNext w s).inputs = .command w :: s.inputs := rfl
@[simp] theorem deliverNext_responses (w : CommandWord) (s : State) :
    (deliverNext w s).responses = s.responses := rfl

@[simp] theorem setInputs_setInputs (es es' : List Input) (s : State) :
    setInputs es (setInputs es' s) = setInputs es s := rfl
@[simp] theorem setInputs_self (s : State) : setInputs s.inputs s = s := rfl

end Sys2Proof.Machine
end

