-- ==== Sys2Proof/Laws/Ops.lean ====
section
/-! SUPPORT. For each shared operation, once, everything it can do. -/

namespace Sys2Proof.Machine

/-- A completed command: one OK response, nothing else. -/
theorem complete_eq (d : U32) (s : State) :
    complete d s = .next ⟨s.crc, s.inputs, s.responses ++ [responseWord .ok d]⟩ := rfl

/-- An error: one response with its status and RDATA 0, nothing else (rule R82). -/
theorem raise_eq (e : Status) (s : State) :
    raise e s = .next ⟨s.crc, s.inputs, s.responses ++ [responseWord e 0#32]⟩ := rfl

/-- INIT, SEED and FOLD write CRC and answer its new value. -/
theorem updateCrc_eq (v : U32) (s : State) :
    updateCrc v s = .next ⟨v, s.inputs, s.responses ++ [responseWord .ok v]⟩ := rfl

/-- The reset event writes CRC and nothing else (rule R94). -/
theorem onReset_eq (s : State) : onReset s = .next ⟨Config.resetCrc, s.inputs, s.responses⟩ := rfl

theorem idle_eq (s : State) : idle s = .next s := rfl

theorem execTblent_valid {b : Nat} {i : U32} (hb : widthValid b) (hi : indexInTable b i) (s : State) :
    execTblent b i s = complete (tableEntry b i) s := by
  rw [execTblent, if_neg (not_not_intro hb), if_neg (not_not_intro hi)]

theorem execTblent_badWidth {b : Nat} (hb : ¬ widthValid b) (i : U32) (s : State) :
    execTblent b i s = raise .cfgErr s := by rw [execTblent, if_pos hb]

theorem execTblent_badIndex {b : Nat} {i : U32} (hb : widthValid b) (hi : ¬ indexInTable b i) (s : State) :
    execTblent b i s = raise .rangeErr s := by
  rw [execTblent, if_neg (not_not_intro hb), if_pos hi]

/-- A word that decodes runs its command; any other raises IllegalCommand. -/
theorem runCommand_command {w : CommandWord} {i : Instr} (h : decode w = .command i) (s : State) :
    runCommand w s = exec i s := by simp only [runCommand, h]

theorem runCommand_illegal {w : CommandWord} {why : DecodeReject} (h : decode w = .illegal why) (s : State) :
    runCommand w s = raise .illegal s := by simp only [runCommand, h]

/-! What a step does, by the oldest event. -/

@[simp] theorem step_nil (c : U32) (rs : List ResponseWord) : step ⟨c, [], rs⟩ = .next ⟨c, [], rs⟩ := rfl
@[simp] theorem step_cons_reset (c : U32) (es : List Input) (rs : List ResponseWord) :
    step ⟨c, .reset :: es, rs⟩ = .next ⟨Config.resetCrc, es, rs⟩ := rfl
@[simp] theorem step_cons_resetDuring (c : U32) (w : CommandWord) (es : List Input) (rs : List ResponseWord) :
    step ⟨c, .resetDuring w :: es, rs⟩ = .next ⟨Config.resetCrc, es, rs⟩ := rfl
@[simp] theorem step_cons_command (c : U32) (w : CommandWord) (es : List Input) (rs : List ResponseWord) :
    step ⟨c, .command w :: es, rs⟩ = runCommand w ⟨c, es, rs⟩ := rfl

end Sys2Proof.Machine
end

