-- ==== Sys2Proof/Laws/PerInstr.lean ====
section
/-! SUPPORT. A statement about every command as syntax, one lemma per constructor: its opcode-table row selects the
word the encoder writes for it (30_encoding.md rule R45). -/

namespace Sys2Proof.Laws.SelectsRow

/-- The command's row of the opcode table selects its encoding. -/
def Statement (i : Instr) : Prop := i.wf = true → i.row.selects (encode i)

theorem init : Statement .init := fun _ => by decide +kernel

theorem getcrc : Statement .getcrc := fun _ => by decide +kernel

theorem seed (data : U32) : Statement (.seed data) := by
  intro _
  rw [OpcodeRow.selects_iff]
  intro j hj
  simp only [encode, Instr.row, seedRow, getLsbD_packFields]
  interval_cases j <;> simp

theorem fold (n : Nat) (data : U32) : Statement (.fold n data) := by
  intro _
  rw [OpcodeRow.selects_iff]
  intro j hj
  simp only [encode, Instr.row, foldRow, getLsbD_packFields]
  interval_cases j <;> simp

theorem tblrd (index8 : Byte) : Statement (.tblrd index8) := by
  intro _
  rw [OpcodeRow.selects_iff]
  intro j hj
  simp only [encode, Instr.row, tblrdRow, getLsbD_packFields]
  interval_cases j <;> simp

theorem tblent (bits : Nat) (index : U32) : Statement (.tblent bits index) := by
  intro _
  rw [OpcodeRow.selects_iff]
  intro j hj
  simp only [encode, Instr.row, tblentRow, getLsbD_packFields]
  interval_cases j <;> simp

end Sys2Proof.Laws.SelectsRow
end

