-- ==== Sys2Proof/Laws/Run.lean ====
section
/-! SUPPORT. Runs, one step at a time. -/

namespace Sys2Proof.Machine

@[simp] theorem runSteps_zero (s : State) : runSteps 0 s = .next s := rfl

/-- A run of n + 1 steps is a step and then a run of n. -/
theorem runSteps_succ {n : Nat} {s t : State} (h : step s = .next t) : runSteps (n + 1) s = runSteps n t := by
  show Host.Core.run Sys2Proof.core (n + 1) s = Host.Core.run Sys2Proof.core n t
  simp only [Host.Core.run, show Sys2Proof.core.step s = .next t from h]

@[simp] theorem deliver_nil : deliver [] = [] := rfl
@[simp] theorem deliver_cons (i : Instr) (is : List Instr) :
    deliver (i :: is) = .command (encode i) :: deliver is := rfl
@[simp] theorem deliver_append (is js : List Instr) : deliver (is ++ js) = deliver is ++ deliver js := by
  simp only [deliver, List.map_append]

@[simp] theorem chunks_nil : chunks [] = [] := rfl
@[simp] theorem chunks_four (c0 c1 c2 c3 : Byte) (rest : List Byte) :
    chunks (c0 :: c1 :: c2 :: c3 :: rest) = [c0, c1, c2, c3] :: chunks rest := rfl

/-- A buffer of one to three bytes is one chunk. -/
theorem chunks_short {buffer : List Byte} (h : buffer.length < 4) (h0 : buffer ≠ []) : chunks buffer = [buffer] := by
  match buffer with
  | [] => exact absurd rfl h0
  | [_] => rfl
  | [_, _] => rfl
  | [_, _, _] => rfl
  | _ :: _ :: _ :: _ :: _ => simp only [List.length_cons] at h; omega

end Sys2Proof.Machine
end

