-- ==== Sys2Proof/Tests/Slice0.lean ====
section
/-! SUPPORT. The model's own tests. Every expected value is the spec's: spec/95_test_vectors.md (V, P or section named at
the test), or the encodings of spec/30_encoding.md written out by hand. After them, one witness per statement that has
hypotheses. -/

namespace Sys2Proof.Tests

open Sys2Proof Sys2Proof.Machine

/-! ## WellFormed refuses what has no encoding (rule R49) -/

theorem test_wf_refuses_fold_0 : (Instr.fold 0 0#32).wf = false := by decide
theorem test_wf_refuses_fold_5 : (Instr.fold 5 0#32).wf = false := by decide
theorem test_wf_refuses_tblent_64 : (Instr.tblent 64 0#32).wf = false := by decide
theorem test_wf_admits_bounds :
    (Instr.fold 1 0#32).wf && (Instr.fold 4 0#32).wf && (Instr.tblent 0 0#32).wf && (Instr.tblent 63 0#32).wf := by
  decide

/-! ## Decoding: OPC, then the format's fields, written out bit by bit (rules R38 to R42) -/

theorem test_decode_init : decode 0b0000000100000000000000000000000000000000000000000000000000000000#64
    = .command .init := by decide
theorem test_decode_seed : decode 0b0000001000000000000000000000000011000010000010010001010000101000#64
    = .command (.seed 0xC2091428#32) := by decide
theorem test_decode_getcrc : decode 0b0000001100000000000000000000000000000000000000000000000000000000#64
    = .command .getcrc := by decide
theorem test_decode_fold_4 : decode 0b0001000000000011000000000000000000110100001100110011001000110001#64
    = .command (.fold 4 0x34333231#32) := by decide
theorem test_decode_fold_2 : decode 0b0001000000000001000000000000000000000000000000000011010000110011#64
    = .command (.fold 2 0x00003433#32) := by decide
theorem test_decode_tblrd : decode 0b0010000000000000000000000000000000000000000000000000000011001110#64
    = .command (.tblrd 0xCE#8) := by decide
theorem test_decode_tblent : decode 0b0010000100010000000000000000000000000000000000001000000000000000#64
    = .command (.tblent 16 0x8000#32) := by decide
/-- Section 2.3: reserved opcodes, and reserved bits of every format. -/
theorem test_decode_reserved :
    decode 0x0000000000000000#64 = .illegal .reservedOpcode ∧ decode 0x2200000000000000#64 = .illegal .reservedOpcode ∧
    decode 0x0180000000000000#64 = .illegal .reservedBit ∧ decode 0x0200000100000000#64 = .illegal .reservedBit ∧
    decode 0x1004000000000000#64 = .illegal .reservedBit ∧ decode 0x1000000100000039#64 = .illegal .reservedBit ∧
    decode 0x2000000000000100#64 = .illegal .reservedBit ∧ decode 0x2140000000000000#64 = .illegal .reservedBit := by
  decide
/-- The words of the opcode table, as the host numbers them. -/
theorem test_decodeTableWord : decodeTableWord 64 0x1003000034333231 = some (.fold 4 0x34333231#32) ∧
    decodeTableWord 64 0 = none := by decide
/-- Rule R49's example. -/
theorem test_encode_fold : encode (.fold 4 0x34333231#32) = 0x1003000034333231#64 := by decide

/-! ## One step of each command -/

/-- CRC holds `c` and the host delivers `w`. -/
def before (c : U32) (w : CommandWord) : State := ⟨c, [.command w], []⟩

/-- The step is a next state with CRC `c`, nothing left to do, and the one response `r`. -/
def answers (s : State) (r : ResponseWord) (c : U32) : Bool :=
  match step s with
  | .next t => decide (t = ⟨c, [], [r]⟩)
  | .fault _ => false
  | .refused _ => false

/-- Section 2.6. -/
theorem test_init : answers (before 0x12345678#32 0x0100000000000000#64) 0x00000000FFFFFFFF#64 0xFFFFFFFF#32 := by
  decide
/-- Section 2.6. -/
theorem test_seed : answers (before 0xFFFFFFFF#32 0x02000000C2091428#64) 0x00000000C2091428#64 0xC2091428#32 := by
  decide
/-- Section 2.6. -/
theorem test_getcrc : answers (before 0xA62F1C36#32 0x0300000000000000#64) 0x00000000A62F1C36#64 0xA62F1C36#32 := by
  decide
/-- V2, first FOLD: a full chunk. -/
theorem test_fold_full : answers (before 0xFFFFFFFF#32 0x1003000034333231#64) 0x00000000C2091428#64 0xC2091428#32 := by
  decide
/-- V3, last FOLD: the vector that tells the padding rule apart. -/
theorem test_fold_partial :
    answers (before 0x4B4C4909#32 0x1001000000003433#64) 0x0000000089F3BAB2#64 0x89F3BAB2#32 := by decide
/-- Section 2.2. -/
theorem test_tblrd : answers (before 0x12345678#32 0x20000000000000CE#64) 0x0000000061043093#64 0x12345678#32 := by
  decide
/-- Section 2.2. -/
theorem test_tblent : answers (before 0x12345678#32 0x2110000000008000#64) 0x00000000828CD898#64 0x12345678#32 := by
  decide +kernel
/-- Section 2.3: the errors, and the priority of ILLEGAL over CFG_ERR (rule R83). -/
theorem test_errors :
    answers (before 0x12345678#32 0x2140000000000000#64) 0x0000000100000000#64 0x12345678#32 ∧
    answers (before 0x12345678#32 0x2100000012345678#64) 0x0000000200000000#64 0x12345678#32 ∧
    answers (before 0x12345678#32 0x2121000000000000#64) 0x0000000200000000#64 0x12345678#32 ∧
    answers (before 0x12345678#32 0x2108000000000100#64) 0x0000000300000000#64 0x12345678#32 := by decide
/-- P6: reset during a FOLD sets CRC and answers nothing. -/
theorem test_resetDuring :
    step ⟨0xC2091428#32, [.resetDuring 0x1003000034333231#64], []⟩ = .next ⟨0xFFFFFFFF#32, [], []⟩ := rfl

/-! ## Functions and the assembler -/

/-- V2: crc32 of "123456789". -/
theorem test_crc32 : crc32 [0x31#8, 0x32#8, 0x33#8, 0x34#8, 0x35#8, 0x36#8, 0x37#8, 0x38#8, 0x39#8] = 0xAFF19057#32 := by
  decide +kernel
/-- Section 2.1, row 0x08. -/
theorem test_buildTable : ((buildTable 8).drop 8).take 3 = [0x2608EDB8#32, 0x22C9F00F#32, 0x2F8AD6D6#32] := by
  decide
/-- Rule R49's example line, and rule R50's. -/
theorem test_assembleText :
    assembleText "FOLD 4, 0x34333231 ; a chunk".toList = some [0x1003000034333231#64] ∧
    assembleText "FOLDB 0x31, 0x32".toList = some [0x1001000000003231#64] ∧
    assembleText "FOLD 5, 0".toList = none ∧ assembleText "TBLENT 64, 0".toList = none := by decide
/-- P1's words, by the pseudo-instruction. -/
theorem test_assembleText_crc32 :
    assembleText ("CRC32 ".toList ++ [quoteChar] ++ "1234\\x35".toList ++ [quoteChar]) =
      some [0x0100000000000000#64, 0x1003000034333231#64, 0x1000000000000035#64, 0x0300000000000000#64] := by
  decide +kernel

/-! ## Witnesses: what meets the hypotheses of each statement that has some -/

theorem witness_ResetEventSetsCrcAndAnswersNothing :
    (∃ s : State, ∃ e rest, s.inputs = e :: rest ∧ e = .reset) ∧
    (∃ s : State, ∃ e rest, s.inputs = e :: rest ∧ ∃ w, e = .resetDuring w) :=
  ⟨⟨⟨5#32, [.reset], [7#64]⟩, .reset, [], rfl, rfl⟩, ⟨⟨5#32, [.resetDuring 9#64], []⟩, .resetDuring 9#64, [], rfl, 9#64, rfl⟩⟩

theorem witness_IdleStepChangesNothing : State.reset.inputs = [] := rfl

theorem witness_StepRunsDecodedCommand :
    (∃ s : State, ∃ w rest i, s.inputs = .command w :: rest ∧ decode w = .command i) ∧
    (∃ s : State, ∃ w rest why, s.inputs = .command w :: rest ∧ decode w = .illegal why) :=
  ⟨⟨before 5#32 0x0100000000000000#64, _, [], .init, rfl, by decide⟩,
    ⟨before 5#32 0#64, _, [], .reservedOpcode, rfl, by decide⟩⟩

theorem witness_PlacedWordRunsNext : decodeTableWord 64 0x0300000000000000 = some .getcrc := by decide

theorem witness_ExecFrame : exec .getcrc (before 5#32 0#64) = .next (respond .ok 5#32 (before 5#32 0#64)) ∧
    writesCrc .getcrc = false := ⟨rfl, rfl⟩

theorem witness_CrcChangesOnlyByWritersOrReset :
    ∃ s t : State, step s = .next t ∧ t.crc ≠ s.crc :=
  ⟨⟨5#32, [.reset], []⟩, ⟨0xFFFFFFFF#32, [], []⟩, rfl, by decide⟩

/-- For the clause about the words of each OPC: one that decodes and one with a reserved bit set. -/
theorem witness_opcode_clauses :
    (opcField 0x0100000000000000#64 = 0x01#8 ∧ opcField 0x0100000000000001#64 = 0x01#8) ∧
    (opcField 0x02000000FFFFFFFF#64 = 0x02#8 ∧ opcField 0x0280000000000000#64 = 0x02#8) ∧
    (opcField 0x0300000000000000#64 = 0x03#8 ∧ opcField 0x0380000000000000#64 = 0x03#8) ∧
    (opcField 0x10030000FFFFFFFF#64 = 0x10#8 ∧ opcField 0x1004000000000000#64 = 0x10#8) ∧
    (opcField 0x20000000000000FF#64 = 0x20#8 ∧ opcField 0x2000000000000100#64 = 0x20#8) ∧
    (opcField 0x213F0000FFFFFFFF#64 = 0x21#8 ∧ opcField 0x2140000000000000#64 = 0x21#8) := by decide

theorem witness_FoldFoldsChunkIntoCrc : (1 ≤ 1 ∧ 1 ≤ 4) ∧ (1 ≤ 4 ∧ 4 ≤ 4) := by decide

theorem witness_FoldDividesCrcXorWordView : (1 ≤ 1 ∧ 1 ≤ 4) ∧ (1 ≤ 4 ∧ 4 ≤ 4) := by decide

/-- TBLENT's clauses at the ends of their ranges: widths 1 and 32 with the last index, widths 0, 33 and 63, and the first
index outside the tables of widths 1 and 31. -/
theorem witness_TblentComputesEntry :
    (1 ≤ 1 ∧ 1 ≤ 32 ∧ (1#32).toNat < 2 ^ 1) ∧ (1 ≤ 32 ∧ 32 ≤ 32 ∧ (0xFFFFFFFF#32).toNat < 2 ^ 32) ∧
    (0 = 0 ∨ 32 < 0) ∧ (33 = 0 ∨ 32 < 33) ∧ (63 = 0 ∨ 32 < 63) ∧
    (1 ≤ 1 ∧ 1 ≤ 32 ∧ 2 ^ 1 ≤ (2#32).toNat) ∧ (1 ≤ 31 ∧ 31 ≤ 32 ∧ 2 ^ 31 ≤ (0x80000000#32).toNat) := by decide

theorem witness_CommandsButFoldAreIdempotent :
    (∀ n d, Instr.init ≠ .fold n d) ∧ exec .init State.reset = .next ⟨0xFFFFFFFF#32, [], [0x00000000FFFFFFFF#64]⟩ :=
  ⟨fun _ _ h => Instr.noConfusion h, rfl⟩

theorem witness_OneResponsePerCommand :
    (∃ s t : State, ∃ e rest, s.inputs = e :: rest ∧ step s = .next t ∧ ∃ w, e = .command w) ∧
    (∃ s t : State, ∃ e rest, s.inputs = e :: rest ∧ step s = .next t ∧ ∀ w, e ≠ .command w) :=
  ⟨⟨before 5#32 0x0300000000000000#64, ⟨5#32, [], [5#64]⟩, _, [], rfl, rfl, _, rfl⟩,
    ⟨⟨5#32, [.reset], []⟩, ⟨0xFFFFFFFF#32, [], []⟩, .reset, [], rfl, rfl, fun _ h => Input.noConfusion h⟩⟩

theorem witness_StatusReportsTheFirstCause :
    (before 5#32 0x2100000000000000#64).inputs = .command 0x2100000000000000#64 :: [] := rfl

theorem witness_ErrorsWriteNoState :
    (before 5#32 0x2100000000000000#64).inputs = .command 0x2100000000000000#64 :: [] ∧
    step (before 5#32 0x2100000000000000#64) = .next ⟨5#32, [], [0x0000000200000000#64]⟩ ∧
    statOf 0x0000000200000000#64 ≠ 0#2 := ⟨rfl, rfl, by decide⟩

theorem witness_StepKeepsResponsesWellFormed :
    responsesOk ⟨5#32, [.reset], [0x0000000100000000#64]⟩ ∧
    step ⟨5#32, [.reset], [0x0000000100000000#64]⟩ = .next ⟨0xFFFFFFFF#32, [], [0x0000000100000000#64]⟩ :=
  ⟨fun r hr => by rw [List.mem_singleton.1 hr]; decide, rfl⟩

theorem witness_DecodeEncodeRoundTrip : (Instr.fold 4 0xFFFFFFFF#32).wf = true ∧ (Instr.tblent 63 0#32).wf = true := by
  decide

theorem witness_EncodeDecodeRoundTrip : decode 0x213F0000FFFFFFFF#64 = .command (.tblent 63 0xFFFFFFFF#32) := by
  decide

theorem witness_DecodeAgreesWithOpcodeTable :
    decode 0x20000000000000FF#64 = .command (.tblrd 0xFF#8) ∧
    (tblentRow ∈ opcodeTable ∧ tblentRow.selects 0x213F0000FFFFFFFF#64) ∧
    (∀ r ∈ opcodeTable, ¬ r.selects 0x213F000100000000#64) ∧
    (before 5#32 0x213F000100000000#64).inputs = .command 0x213F000100000000#64 :: [] := by
  refine ⟨by decide, by decide, by decide, rfl⟩

/-- Every alternative of the hypothesis, the reserved opcodes at both ends of their ranges. -/
theorem witness_ReservedWordsAnswerIllegal :
    ((0x0400000000000000#64).extractLsb' 56 8).toNat = 0x04 ∧ ((0x0F00000000000000#64).extractLsb' 56 8).toNat = 0x0F ∧
    ((0x1100000000000000#64).extractLsb' 56 8).toNat = 0x11 ∧ ((0x1F00000000000000#64).extractLsb' 56 8).toNat = 0x1F ∧
    0x22 ≤ ((0x2200000000000000#64).extractLsb' 56 8).toNat ∧ 0x22 ≤ ((0xFF00000000000000#64).extractLsb' 56 8).toNat ∧
    (0x0100000000000001#64).extractLsb' 0 56 ≠ 0#56 ∧ (0x0380000000000000#64).extractLsb' 0 56 ≠ 0#56 ∧
    (0x0280000000000000#64).extractLsb' 32 24 ≠ 0#24 ∧ (0x1004000000000000#64).extractLsb' 50 6 ≠ 0#6 ∧
    (0x1000000100000000#64).extractLsb' 32 16 ≠ 0#16 ∧ (0x2000000000000100#64).extractLsb' 8 48 ≠ 0#48 ∧
    (0x2140000000000000#64).extractLsb' 54 2 ≠ 0#2 ∧ (0x2100000100000000#64).extractLsb' 32 16 ≠ 0#16 ∧
    (before 5#32 0#64).inputs = .command 0#64 :: [] := by decide

theorem witness_FormatsPlaceFields : (1 ≤ 4 ∧ 4 ≤ 4) ∧ 63 ≤ 63 := by decide

theorem witness_BuildTableListsEntries : 1 ≤ 32 ∧ 32 ≤ 32 ∧ 0xFFFFFFFF < 2 ^ 32 := by decide

theorem witness_BoundaryEntries : (1 ≤ 1 ∧ 1 ≤ 32) ∧ (1 ≤ 32 ∧ 32 ≤ 32) := by decide

theorem witness_TableEntryIsLinear :
    1 ≤ 1 ∧ 1 ≤ 32 ∧ (1#32).toNat < 2 ^ 1 ∧ (0#32).toNat < 2 ^ 1 := by decide

theorem witness_TableEntriesAreDistinct :
    (1 ≤ 32 ∧ 32 ≤ 32 ∧ (0xFFFFFFFF#32).toNat < 2 ^ 32 ∧ tableEntry 32 0xFFFFFFFF#32 = tableEntry 32 0xFFFFFFFF#32) ∧
    (tbl 0xFF#8).extractLsb' 24 8 = (tbl 0xFF#8).extractLsb' 24 8 := by decide +kernel

theorem witness_NarrowTableIsPrefixOfWider :
    1 ≤ 1 ∧ 1 ≤ 32 ∧ 32 ≤ 32 ∧ (1#32).toNat < 2 ^ 1 := by decide

theorem witness_ConsumptionOrder :
    1 ≤ 1 ∧ 1 ≤ 4 ∧ ∀ j, j < 1 → (0xFFFFFF39#32).extractLsb' (8 * j) 8 = (0x00000039#32).extractLsb' (8 * j) 8 := by
  decide

theorem witness_WordViewBytesAreConsumed : (1 ≤ 1 ∧ 1 ≤ 4) ∧ (1 ≤ 4 ∧ 4 ≤ 4) := by decide

theorem witness_ChunksPartitionBuffer :
    (1 < ([1#8, 2#8, 3#8, 4#8, 5#8].length + 3) / 4) ∧ [5#8] ∈ chunks [1#8, 2#8, 3#8, 4#8, 5#8] := by decide

theorem witness_ChunkBytesSitInLanes : 1 ≤ [1#8, 2#8].length ∧ [1#8, 2#8].length ≤ 4 ∧ 1 < [1#8, 2#8].length := by
  decide

theorem witness_ComputeSequenceRefinesCompute :
    (setInputs (deliver (computeCommands 5#32 [1#8]) ++ [.reset]) State.reset).inputs =
      deliver (computeCommands 5#32 [1#8]) ++ [.reset] := setInputs_inputs _ _

theorem witness_Crc32IsComputeWithDefaultSeed : 1 ≤ 1 := by decide

theorem witness_BuildTableSequenceReadsTable :
    (1 ≤ 1 ∧ 1 ≤ 32 ∧ (setInputs (deliver (buildTableCommands 1) ++ []) State.reset).inputs =
      deliver (buildTableCommands 1) ++ []) ∧
    (setInputs (deliver readTableCommands ++ []) State.reset).inputs = deliver readTableCommands ++ [] ∧
    ((0 = 0 ∨ (32 < 0 ∧ 0 ≤ 63)) ∧ (setInputs (deliver (buildTableCommands 0) ++ []) State.reset).inputs =
      deliver (buildTableCommands 0) ++ []) ∧
    ((33 = 0 ∨ (32 < 33 ∧ 33 ≤ 63)) ∧ (setInputs (deliver (buildTableCommands 33) ++ []) State.reset).inputs =
      deliver (buildTableCommands 33) ++ []) :=
  ⟨⟨by decide, by decide, setInputs_inputs _ _⟩, setInputs_inputs _ _, ⟨by decide, setInputs_inputs _ _⟩,
    ⟨by decide, setInputs_inputs _ _⟩⟩

/-- Pieces of 4, 0 and 1 bytes. -/
theorem witness_AlignedChaining :
    ∀ front p after, [[1#8, 2#8, 3#8, 4#8], [], [5#8]] = front ++ p :: after → (∃ q ∈ after, q ≠ []) →
      p.length % 4 = 0 := by
  rintro (_ | ⟨a, _ | ⟨b, _ | ⟨c, _ | ⟨d, front⟩⟩⟩⟩) p after h hq
  · cases h; rfl
  · cases h; rfl
  · cases h; simp at hq
  · cases h
  · cases h

theorem witness_BehaviourDependsOnlyOnCrc :
    (before 5#32 0#64).crc = (⟨5#32, [.command 0#64], [7#64]⟩ : State).crc ∧
    (before 5#32 0#64).inputs = (⟨5#32, [.command 0#64], [7#64]⟩ : State).inputs := ⟨rfl, rfl⟩

theorem witness_SeedResumesSavedComputation :
    (⟨9#32, [.command (encode (.seed 5#32)), .command 0#64], []⟩ : State).inputs =
      .command (encode (.seed (before 5#32 0#64).crc)) :: (before 5#32 0#64).inputs := rfl

theorem witness_ComputationResultIsLastWritersResponse :
    isComputation [.seed 5#32, .fold 1 9#32, .tblrd 0#8, .getcrc] ∧
    (∀ i ∈ [Instr.seed 5#32, .fold 1 9#32, .tblrd 0#8, .getcrc], i.wf = true) :=
  ⟨⟨.seed 5#32, [.fold 1 9#32, .tblrd 0#8], rfl, rfl, by decide⟩, by decide⟩

/-- One of two events taken, and both. -/
theorem witness_EveryCommandIsAnsweredOnce :
    1 ≤ (⟨5#32, [.command 0#64, .reset], []⟩ : State).inputs.length ∧
    2 ≤ (⟨5#32, [.command 0#64, .reset], []⟩ : State).inputs.length := by decide

theorem witness_AssembledLinesDecode :
    0xFFFFFFFF < 2 ^ 32 ∧ (1 ≤ 1 ∧ 1 ≤ 4) ∧ (1 ≤ 4 ∧ 4 ≤ 4) ∧ 255 < 256 ∧ 63 ≤ 63 ∧ (0 = 0 ∨ 4 < 0) ∧
    (5 = 0 ∨ 4 < 5) ∧ 63 < 64 ∧ 2 ^ 32 ≤ 2 ^ 32 ∧ 256 ≤ 256 ∧ ([] : List Nat).length = 0 ∧ 4 < [0, 0, 0, 0, 0].length ∧
    (∃ v ∈ [0, 256], 256 ≤ v) := by decide

/-- The last index of the widest table, and the last one an INDEX field holds at the widest encodable width. -/
theorem witness_PseudoInstructionsExpand :
    (32 ≤ 63 ∧ 32 ≤ 32 ∧ 2 ^ 32 - 1 < 2 ^ 32) ∧ (63 ≤ 63 ∧ 2 ^ 32 - 1 < 2 ^ 63 ∧ 2 ^ 32 - 1 < 2 ^ 32) := by decide

theorem witness_TableRequestSendsOnlyEncodableCommands :
    (1 ≤ 63 ∧ 1 ≤ 1 ∧ 1 ≤ 32 ∧ .tblent 1 1#32 ∈ buildTableCommands 1) ∧ 63 ≤ 63 ∧ 63 < 64 := by decide

theorem witness_HostRejectsNonBytes : ∃ v ∈ [0, 256], 255 < v := by decide

end Sys2Proof.Tests
end

section
/-! PROOFS. Reset (10_state.md rule R17): the words of FOLD and GETCRC decode, a run of the FOLDs of a buffer leaves CRC
at compute of it, and so a run of them straight after reset leaves it at crc32. -/

namespace Sys2Proof

/-! ## The words of FOLD and GETCRC decode to their commands -/

/-- A packed word whose BITS field is zero above LENM1 has the bits zero that format F reserves (rule R40). -/
theorem reservedOkF_packFields (opc : BitVec 8) (lenm1 : BitVec 2) (data : U32) :
    reservedOkF (packFields opc 0#6 lenm1 data) = true := by
  have upper : (packFields opc 0#6 lenm1 data).extractLsb' 50 6 = 0#6 := by
    refine BitVec.eq_of_getLsbD_eq fun j hj => ?_
    simp [getLsbD_packFields, hj, show ¬ 50 + j < 32 by omega, show ¬ 50 + j < 48 by omega,
      show 50 + j < 56 by omega, BitVec.getLsbD_of_ge lenm1 (50 + j - 48) (by omega)]
  have lower : (packFields opc 0#6 lenm1 data).extractLsb' 32 16 = 0#16 := by
    refine BitVec.eq_of_getLsbD_eq fun j hj => ?_
    simp [getLsbD_packFields, show 32 + j < 48 by omega]
  simp [reservedOkF, upper, lower]

/-- LENM1 holds the chunk length less one (rule R43). -/
theorem lenm1_toNat_add_one {n : Nat} (h : Instr.chunkLengthOk n) : (BitVec.ofNat 2 (n - 1)).toNat + 1 = n := by
  obtain ⟨pos, le⟩ : 1 ≤ n ∧ n ≤ 4 := h
  rw [BitVec.toNat_ofNat, Nat.mod_eq_of_lt (by omega), Nat.sub_add_cancel pos]

theorem decode_encode_fold {n : Nat} (h : Instr.chunkLengthOk n) (data : U32) :
    decode (encode (.fold n data)) = .command (.fold n data) := by
  simp [decode, encode, ifReservedZero, reservedOkF_packFields, lenm1_toNat_add_one h, -BitVec.toNat_ofNat]

theorem decode_encode_getcrc : decode (encode .getcrc) = .command .getcrc := by decide

end Sys2Proof

namespace Sys2Proof.Machine

/-! ## Chunks -/

/-- Every chunk of a buffer has a length FOLD can carry (rule R19). -/
theorem chunkLengthOk_of_mem_chunks {chunk buffer : List Byte} (h : chunk ∈ chunks buffer) :
    Instr.chunkLengthOk chunk.length := by
  induction buffer using chunks.induct with
  | case1 c0 c1 c2 c3 rest ih =>
    rw [chunks_four, List.mem_cons] at h
    rcases h with rfl | h
    · exact ⟨Nat.succ_pos _, le_rfl⟩
    · exact ih h
  | case2 => simp at h
  | case3 short notFour nonempty =>
    have short_length : short.length < 4 := by
      match short with
      | [] | [_] | [_, _] | [_, _, _] => simp
      | c0 :: c1 :: c2 :: c3 :: rest => exact (notFour c0 c1 c2 c3 rest rfl).elim
    rw [chunks_short short_length nonempty, List.mem_singleton] at h
    subst h
    exact ⟨List.length_pos_iff.2 nonempty, short_length.le⟩

/-- What the FOLD of a chunk makes of CRC (rules R62, R67). -/
def foldChunk (c : U32) (chunk : List Byte) : U32 := processWord c chunk.length (packLanes chunk)

theorem compute_eq_foldl (seed : U32) (buffer : List Byte) : compute seed buffer = (chunks buffer).foldl foldChunk seed :=
  rfl

/-- The word of a chunk's FOLD decodes to that FOLD. -/
theorem decode_encode_foldb {chunk : List Byte} (h : Instr.chunkLengthOk chunk.length) :
    decode (encode (foldb chunk)) = .command (foldb chunk) := decode_encode_fold h (packLanes chunk)

theorem exec_foldb (chunk : List Byte) (s : State) : exec (foldb chunk) s = updateCrc (foldChunk s.crc chunk) s := rfl

theorem exec_getcrc (s : State) : exec .getcrc s = complete s.crc s := rfl

/-! ## Runs -/

/-- The FOLDs of well-formed chunks take one step each, answer OK, and leave CRC with the chunks folded in, in order; the
run goes on from there with the events after them (rules R30, R67). -/
theorem runSteps_folds (cs : List (List Byte)) (hcs : ∀ chunk ∈ cs, Instr.chunkLengthOk chunk.length) (k : Nat)
    (c : U32) (rest : List Input) (given : List ResponseWord) :
    ∃ rs, rs.length = cs.length ∧ clean rs ∧
      runSteps (cs.length + k) ⟨c, deliver (cs.map foldb) ++ rest, given⟩ =
        runSteps k ⟨cs.foldl foldChunk c, rest, given ++ rs⟩ := by
  induction cs generalizing c given with
  | nil => exact ⟨[], rfl, by simp [clean], by simp⟩
  | cons chunk cs ih =>
    obtain ⟨hchunk, hcs⟩ := List.forall_mem_cons.1 hcs
    have hstep : step ⟨c, deliver ((chunk :: cs).map foldb) ++ rest, given⟩ =
        .next ⟨foldChunk c chunk, deliver (cs.map foldb) ++ rest,
          given ++ [responseWord .ok (foldChunk c chunk)]⟩ := by
      rw [List.map_cons, deliver_cons, List.cons_append, step_cons_command,
        runCommand_command (decode_encode_foldb hchunk), exec_foldb, updateCrc_eq]
    obtain ⟨rs, hlength, hclean, hrun⟩ := ih hcs (foldChunk c chunk) (given ++ [responseWord .ok (foldChunk c chunk)])
    refine ⟨responseWord .ok (foldChunk c chunk) :: rs, by simp [hlength], ?_, ?_⟩
    · exact List.forall_mem_cons.2 ⟨statOf_responseWord _ _, hclean⟩
    · rw [List.length_cons, Nat.add_right_comm, runSteps_succ hstep, hrun, List.append_assoc]
      rfl

/-- The FOLDs of a buffer leave CRC at compute from it (rule R69). -/
theorem runSteps_foldBuffer (buffer : List Byte) (k : Nat) (c : U32) (rest : List Input) (given : List ResponseWord) :
    ∃ rs, rs.length = (chunks buffer).length ∧ clean rs ∧
      runSteps ((chunks buffer).length + k) ⟨c, deliver ((chunks buffer).map foldb) ++ rest, given⟩ =
        runSteps k ⟨compute c buffer, rest, given ++ rs⟩ := by
  rw [compute_eq_foldl]
  exact runSteps_folds (chunks buffer) (fun _ => chunkLengthOk_of_mem_chunks) k c rest given

/-- GETCRC takes one step, answers CRC and changes nothing else (rule R68). -/
theorem step_getcrc (c : U32) (rest : List Input) (given : List ResponseWord) :
    step ⟨c, .command (encode .getcrc) :: rest, given⟩ = .next ⟨c, rest, given ++ [responseWord .ok c]⟩ := by
  rw [step_cons_command, runCommand_command decode_encode_getcrc, exec_getcrc, complete_eq]

/-! ## Reset -/

/-- Settles O1: State.reset is the state with CRC at INIT_VALUE, from which the FOLDs of a buffer lead to crc32 of it,
which GETCRC then answers. -/
theorem resetStartsDefaultComputation : Obligations.ResetStartsDefaultComputation := by
  refine ⟨rfl, rfl, fun buffer => ?_⟩
  obtain ⟨rs, -, -, hrun⟩ := runSteps_foldBuffer buffer 1 Config.initValue (deliver [.getcrc]) []
  refine ⟨rs, ?_⟩
  calc runSteps ((chunks buffer).length + 1)
        (setInputs (deliver ((chunks buffer).map foldb ++ [.getcrc])) State.reset)
      = runSteps ((chunks buffer).length + 1)
          ⟨Config.initValue, deliver ((chunks buffer).map foldb) ++ deliver [.getcrc], []⟩ := by
        rw [deliver_append]; rfl
    _ = runSteps 1 ⟨crc32 buffer, deliver [.getcrc], rs⟩ := hrun
    _ = .next ⟨crc32 buffer, [], rs ++ [responseWord .ok (crc32 buffer)]⟩ :=
        runSteps_succ (step_getcrc (crc32 buffer) [] rs)

end Sys2Proof.Machine
end

section
/-! PROOFS. Chunks (20_memory.md rules R19 to R22): the order in which a chunk's bytes are consumed, how a buffer is cut
into chunks, and how FOLD's DATA carries the bytes of one. -/

namespace Sys2Proof.Machine

/-! ## The order in which a chunk is consumed -/

@[simp] theorem consumeSeq_four (d : U32) : consumeSeq 4 d = [lane d 3, lane d 2, lane d 1, lane d 0] := rfl
@[simp] theorem consumeSeq_three (d : U32) : consumeSeq 3 d = [0#8, lane d 0, lane d 1, lane d 2] := rfl
@[simp] theorem consumeSeq_two (d : U32) : consumeSeq 2 d = [0#8, 0#8, lane d 0, lane d 1] := rfl
@[simp] theorem consumeSeq_one (d : U32) : consumeSeq 1 d = [0#8, 0#8, 0#8, lane d 0] := rfl

theorem lanes_eq_map_range (d : U32) : lanes d = (List.range 4).map (lane d) := rfl

section
variable {n : Nat} {d d' : U32}

/-- The lanes below n are all that a consumption of n bytes takes from DATA. -/
theorem take_lanes_congr (h : ∀ j, j < n → lane d j = lane d' j) : (lanes d).take n = (lanes d').take n := by
  rw [lanes_eq_map_range, lanes_eq_map_range, ← List.map_take, ← List.map_take, List.take_range]
  exact List.map_congr_left fun j hj => h j (lt_of_lt_of_le (List.mem_range.1 hj) (min_le_left n 4))

/-- Lanes n to 3 are not read (rules R20, R61). -/
theorem consumeSeq_congr (h : ∀ j, j < n → lane d j = lane d' j) : consumeSeq n d = consumeSeq n d' := by
  simp only [consumeSeq, take_lanes_congr h]

/-- FOLD reads DATA through the consumption sequence only (rules R62, R67). -/
theorem exec_fold_congr (h : consumeSeq n d = consumeSeq n d') (s : State) :
    exec (.fold n d) s = exec (.fold n d') s := by
  simp only [exec, execFold, processWord, h]

end

/-- Settles O34: each order is the definition at one length, and both the sequence and FOLD depend on the lanes below n
only. -/
theorem consumptionOrder : Obligations.ConsumptionOrder := by
  refine ⟨fun d => ⟨consumeSeq_four d, consumeSeq_three d, consumeSeq_two d, consumeSeq_one d⟩, ?_⟩
  intro n d d' s _ _ sameLanes
  have sameSeq : consumeSeq n d = consumeSeq n d' := consumeSeq_congr sameLanes
  exact ⟨sameSeq, exec_fold_congr sameSeq s⟩

/-! ## A buffer's chunks -/

/-- Induction along `chunks`: a buffer is empty, or one short chunk, or a full chunk before a buffer. -/
theorem chunks_induction {motive : List Byte → Prop} (nil : motive [])
    (short : ∀ chunk : List Byte, chunk.length < 4 → chunk ≠ [] → motive chunk)
    (four : ∀ c0 c1 c2 c3 rest, motive rest → motive (c0 :: c1 :: c2 :: c3 :: rest)) (buffer : List Byte) :
    motive buffer := by
  induction buffer using chunks.induct with
  | case1 c0 c1 c2 c3 rest ih => exact four c0 c1 c2 c3 rest ih
  | case2 => exact nil
  | case3 chunk notFour nonempty =>
    refine short chunk ?_ nonempty
    match chunk with
    | [] | [_] | [_, _] | [_, _, _] => simp
    | c0 :: c1 :: c2 :: c3 :: rest => exact (notFour c0 c1 c2 c3 rest rfl).elim

theorem length_chunks (buffer : List Byte) : (chunks buffer).length = (buffer.length + 3) / 4 := by
  induction buffer using chunks_induction with
  | nil => rfl
  | short chunk lt nonempty =>
    have pos : 0 < chunk.length := List.length_pos_iff.2 nonempty
    rw [chunks_short lt nonempty, List.length_singleton]
    omega
  | four c0 c1 c2 c3 rest ih =>
    simp only [chunks_four, List.length_cons, ih]
    omega

theorem flatten_chunks (buffer : List Byte) : (chunks buffer).flatten = buffer := by
  induction buffer using chunks_induction with
  | nil => rfl
  | short chunk lt nonempty => rw [chunks_short lt nonempty, List.flatten_singleton]
  | four c0 c1 c2 c3 rest ih => rw [chunks_four, List.flatten_cons, ih]; rfl

/-- Chunk k is the bytes from offset 4k, four of them or what is left (rule R19). -/
theorem getElem?_chunks (buffer : List Byte) {k : Nat} (hk : k < (chunks buffer).length) :
    (chunks buffer)[k]? = some ((buffer.drop (4 * k)).take 4) := by
  induction buffer using chunks_induction generalizing k with
  | nil => exact absurd hk (Nat.not_lt_zero k)
  | short chunk lt nonempty =>
    rw [chunks_short lt nonempty] at hk ⊢
    obtain rfl : k = 0 := Nat.lt_one_iff.1 hk
    exact congrArg some (List.take_of_length_le lt.le).symm
  | four c0 c1 c2 c3 rest ih =>
    cases k with
    | zero => rfl
    | succ k => exact ih (Nat.lt_of_succ_lt_succ hk)

/-- Settles O36, each part by induction along `chunks`. -/
theorem chunksPartitionBuffer : Obligations.ChunksPartitionBuffer := fun buffer =>
  ⟨length_chunks buffer, flatten_chunks buffer,
    fun _ hk => getElem?_chunks buffer (hk.trans_eq (length_chunks buffer).symm),
    fun _ hc => chunkLengthOk_of_mem_chunks hc⟩

/-! ## The lanes of a chunk's FOLD -/

@[simp] theorem packLanes_nil : packLanes [] = 0#32 := rfl
@[simp] theorem packLanes_cons (c : Byte) (cs : List Byte) :
    packLanes (c :: cs) = c.setWidth 32 ||| (packLanes cs <<< 8) := rfl

/-- The first byte is in lane 0. -/
theorem lane_zero_packLanes_cons (c : Byte) (cs : List Byte) : lane (packLanes (c :: cs)) 0 = c := by
  refine BitVec.eq_of_getLsbD_eq fun i hi => ?_
  simp [lane, hi, show i < 32 by omega]

/-- The bytes after the first are one lane further up. -/
theorem lane_succ_packLanes_cons (c : Byte) (cs : List Byte) {j : Nat} (hj : j + 1 < 4) :
    lane (packLanes (c :: cs)) (j + 1) = lane (packLanes cs) j := by
  refine BitVec.eq_of_getLsbD_eq fun i hi => ?_
  simp [lane, hi, show 8 * (j + 1) + i < 32 by omega, show ¬ 8 * (j + 1) + i < 8 by omega,
    show 8 * (j + 1) + i - 8 = 8 * j + i by omega, BitVec.getLsbD_of_ge c (8 * (j + 1) + i) (by omega),
    BitVec.getLsbD_eq_getElem (show 8 * j + i < 32 by omega)]

/-- Byte j of a list is in lane j, for the four lanes there are (rule R20). -/
theorem getElem?_eq_lane_packLanes {cs : List Byte} {j : Nat} (hj : j < cs.length) (h4 : j < 4) :
    cs[j]? = some (lane (packLanes cs) j) := by
  induction cs generalizing j with
  | nil => exact absurd hj (Nat.not_lt_zero j)
  | cons c cs ih =>
    cases j with
    | zero => rw [lane_zero_packLanes_cons, List.getElem?_cons_zero]
    | succ j =>
      rw [lane_succ_packLanes_cons c cs h4, List.getElem?_cons_succ]
      exact ih (Nat.lt_of_succ_lt_succ hj) (Nat.lt_of_succ_lt h4)

/-- Four bytes are packed to their little-endian value (rule R20). -/
theorem packLanes_four (c0 c1 c2 c3 : Byte) : packLanes [c0, c1, c2, c3] =
    c0.setWidth 32 ||| c1.setWidth 32 <<< 8 ||| c2.setWidth 32 <<< 16 ||| c3.setWidth 32 <<< 24 := by
  simp [BitVec.shiftLeft_or_distrib, ← BitVec.shiftLeft_add, BitVec.or_assoc]

/-- Settles O37: byte j is in lane j by induction on the chunk, and four bytes are packed little-endian. -/
theorem chunkBytesSitInLanes : Obligations.ChunkBytesSitInLanes := by
  refine ⟨fun chunk _ le => ⟨packLanes chunk, rfl, fun j hj => ?_⟩, fun c0 c1 c2 c3 => ?_⟩
  · exact getElem?_eq_lane_packLanes hj (hj.trans_le le)
  · exact congrArg (Instr.fold 4) (packLanes_four c0 c1 c2 c3)

end Sys2Proof.Machine
end

section
/-! PROOFS. Encoding (30_encoding.md rules R37 to R48): a row of the opcode table is an OPC and a format's reserved
bits, and so is a case of the decoder; the encoder's words are their fields side by side; a command has one response. -/

namespace Sys2Proof

/-! ## A command's opcode, its reserved bits and its operands -/

/-- OPC of the command (rule R44). -/
def Instr.opc : Instr → BitVec 8
  | .init => 0x01#8
  | .seed _ => 0x02#8
  | .getcrc => 0x03#8
  | .fold _ _ => 0x10#8
  | .tblrd _ => 0x20#8
  | .tblent _ _ => 0x21#8

/-- The bits of the word that the command's format reserves are zero (rules R38 to R42). -/
def Instr.reservedZero : Instr → CommandWord → Bool
  | .init, w => reservedOkN w
  | .seed _, w => reservedOkD w
  | .getcrc, w => reservedOkN w
  | .fold _ _, w => reservedOkF w
  | .tblrd _, w => reservedOkR w
  | .tblent _ _, w => reservedOkT w

/-- The command with its operands taken from the fields of the word (rule R43). -/
def Instr.withFields : Instr → CommandWord → Instr
  | .init, _ => .init
  | .seed _, w => .seed (dataField w)
  | .getcrc, _ => .getcrc
  | .fold _ _, w => .fold ((lenm1Field w).toNat + 1) (dataField w)
  | .tblrd _, w => .tblrd (index8Field w)
  | .tblent _ _, w => .tblent (bitsField w).toNat (dataField w)

@[simp] theorem Instr.opc_withFields (i : Instr) (w : CommandWord) : (i.withFields w).opc = i.opc := by
  cases i <;> rfl

@[simp] theorem Instr.reservedZero_withFields (i : Instr) (w : CommandWord) :
    (i.withFields w).reservedZero = i.reservedZero := by cases i <;> rfl

@[simp] theorem Instr.withFields_withFields (i : Instr) (w v : CommandWord) :
    (i.withFields w).withFields v = i.withFields v := by cases i <;> rfl

@[simp] theorem Instr.row_withFields (i : Instr) (w : CommandWord) : (i.withFields w).row = i.row := by
  cases i <;> rfl

/-! ## The decoder, by opcode -/

section
variable {w : CommandWord} {i : Instr}

/-- A word with a command's OPC decodes to that command, with the word's operands, if its reserved bits are zero. -/
theorem decode_of_opc (h : opcField w = i.opc) : decode w = ifReservedZero (i.reservedZero w) (i.withFields w) := by
  cases i <;> simp only [Instr.opc] at h <;> simp [decode, h, Instr.reservedZero, Instr.withFields]

theorem decode_of_reservedOpcode (h : ∀ i : Instr, opcField w ≠ i.opc) : decode w = .illegal .reservedOpcode := by
  have init : opcField w ≠ 0x01#8 := h .init
  have seed : opcField w ≠ 0x02#8 := h (.seed 0)
  have getcrc : opcField w ≠ 0x03#8 := h .getcrc
  have fold : opcField w ≠ 0x10#8 := h (.fold 0 0)
  have tblrd : opcField w ≠ 0x20#8 := h (.tblrd 0)
  have tblent : opcField w ≠ 0x21#8 := h (.tblent 0 0)
  simp only [decode, init, seed, getcrc, fold, tblrd, tblent, if_false]

theorem decode_of_fields (hopc : opcField w = i.opc) (hzero : i.reservedZero w = true) :
    decode w = .command (i.withFields w) := by
  rw [decode_of_opc hopc, hzero, ifReservedZero, if_pos rfl]

/-- What a word that decodes to a command must be (rules R43, R44, R46). -/
theorem fields_of_decode (h : decode w = .command i) :
    opcField w = i.opc ∧ i.reservedZero w = true ∧ i.withFields w = i := by
  by_cases hex : ∃ j : Instr, opcField w = j.opc
  · obtain ⟨j, hopc⟩ := hex
    rw [decode_of_opc hopc, ifReservedZero] at h
    split at h
    · obtain rfl : j.withFields w = i := Decoded.command.inj h
      exact ⟨by rwa [j.opc_withFields], by rwa [j.reservedZero_withFields], j.withFields_withFields w w⟩
    · cases h
  · rw [decode_of_reservedOpcode (not_exists.1 hex)] at h
    cases h

end

/-! ## The opcode table, by fields -/

section
variable {n : Nat}

/-- Words agree on a range of bits if they agree on the two ranges it is cut into. -/
theorem extractLsb'_eq_iff_cut (x y : BitVec n) (start high low : Nat) :
    x.extractLsb' start (high + low) = y.extractLsb' start (high + low) ↔
      x.extractLsb' (start + low) high = y.extractLsb' (start + low) high ∧
        x.extractLsb' start low = y.extractLsb' start low := by
  constructor
  · intro h
    have bits : ∀ j, j < high + low → x.getLsbD (start + j) = y.getLsbD (start + j) := fun j hj => by
      simpa [hj] using congrArg (·.getLsbD j) h
    constructor <;> refine BitVec.eq_of_getLsbD_eq fun j hj => ?_
    · simp [hj, Nat.add_assoc, bits (low + j) (by omega)]
    · simp [hj, bits j (by omega)]
  · rintro ⟨hhigh, hlow⟩
    rw [← BitVec.extractLsb'_append_extractLsb'_eq_extractLsb' rfl, hhigh, hlow,
      BitVec.extractLsb'_append_extractLsb'_eq_extractLsb' rfl]

variable {start len : Nat} {mask : BitVec n}

theorem extractLsb'_and_of_allOnes (h : mask.extractLsb' start len = BitVec.allOnes len) (w : BitVec n) :
    (w &&& mask).extractLsb' start len = w.extractLsb' start len := by
  rw [BitVec.extractLsb'_and, h, BitVec.and_allOnes]

theorem extractLsb'_and_of_zero (h : mask.extractLsb' start len = 0#len) (w : BitVec n) :
    (w &&& mask).extractLsb' start len = 0#len := by
  rw [BitVec.extractLsb'_and, h, BitVec.and_zero]

end

/-- A row selects a word if they agree, under the mask, on the range of all bits. -/
theorem OpcodeRow.selects_iff_extractLsb' (r : OpcodeRow) (w : CommandWord) :
    r.selects w ↔ (w &&& r.mask).extractLsb' 0 64 = r.matchBits.extractLsb' 0 64 := by
  rw [BitVec.extractLsb'_eq_self, BitVec.extractLsb'_eq_self]

/-! Each row's mask is all ones at OPC and at the bits the format reserves, and zero at the operands: the word is cut at
their bounds. -/

section
variable (w : CommandWord)

theorem selects_initRow_iff : initRow.selects w ↔ opcField w = 0x01#8 ∧ reservedOkN w = true := by
  rw [OpcodeRow.selects_iff_extractLsb', extractLsb'_eq_iff_cut _ _ 0 8 56]
  simp [initRow, opcField, reservedOkN, extractLsb'_and_of_allOnes]

theorem selects_seedRow_iff : seedRow.selects w ↔ opcField w = 0x02#8 ∧ reservedOkD w = true := by
  rw [OpcodeRow.selects_iff_extractLsb', extractLsb'_eq_iff_cut _ _ 0 8 56, extractLsb'_eq_iff_cut _ _ 0 24 32]
  simp [seedRow, opcField, reservedOkD, extractLsb'_and_of_allOnes, extractLsb'_and_of_zero]

theorem selects_getcrcRow_iff : getcrcRow.selects w ↔ opcField w = 0x03#8 ∧ reservedOkN w = true := by
  rw [OpcodeRow.selects_iff_extractLsb', extractLsb'_eq_iff_cut _ _ 0 8 56]
  simp [getcrcRow, opcField, reservedOkN, extractLsb'_and_of_allOnes]

theorem selects_foldRow_iff : foldRow.selects w ↔ opcField w = 0x10#8 ∧ reservedOkF w = true := by
  rw [OpcodeRow.selects_iff_extractLsb', extractLsb'_eq_iff_cut _ _ 0 8 56, extractLsb'_eq_iff_cut _ _ 0 6 50,
    extractLsb'_eq_iff_cut _ _ 0 2 48, extractLsb'_eq_iff_cut _ _ 0 16 32]
  simp [foldRow, opcField, reservedOkF, extractLsb'_and_of_allOnes, extractLsb'_and_of_zero]

theorem selects_tblrdRow_iff : tblrdRow.selects w ↔ opcField w = 0x20#8 ∧ reservedOkR w = true := by
  rw [OpcodeRow.selects_iff_extractLsb', extractLsb'_eq_iff_cut _ _ 0 8 56, extractLsb'_eq_iff_cut _ _ 0 48 8]
  simp [tblrdRow, opcField, reservedOkR, extractLsb'_and_of_allOnes, extractLsb'_and_of_zero]

theorem selects_tblentRow_iff : tblentRow.selects w ↔ opcField w = 0x21#8 ∧ reservedOkT w = true := by
  rw [OpcodeRow.selects_iff_extractLsb', extractLsb'_eq_iff_cut _ _ 0 8 56, extractLsb'_eq_iff_cut _ _ 0 2 54,
    extractLsb'_eq_iff_cut _ _ 0 6 48, extractLsb'_eq_iff_cut _ _ 0 16 32]
  simp [tblentRow, opcField, reservedOkT, extractLsb'_and_of_allOnes, extractLsb'_and_of_zero]

end

/-- The command's row selects exactly the words with its OPC and its reserved bits zero. -/
theorem Instr.selects_row_iff (i : Instr) (w : CommandWord) :
    i.row.selects w ↔ opcField w = i.opc ∧ i.reservedZero w = true := by
  cases i with
  | init => exact selects_initRow_iff w
  | seed data => exact selects_seedRow_iff w
  | getcrc => exact selects_getcrcRow_iff w
  | fold n data => exact selects_foldRow_iff w
  | tblrd index8 => exact selects_tblrdRow_iff w
  | tblent bits index => exact selects_tblentRow_iff w

theorem Instr.row_mem_opcodeTable (i : Instr) : i.row ∈ opcodeTable := by
  cases i <;> simp [row, opcodeTable]

/-- Every row of the table is a command's. -/
theorem exists_instr_row_eq {r : OpcodeRow} (h : r ∈ opcodeTable) : ∃ i : Instr, i.row = r := by
  simp only [opcodeTable, List.mem_cons, List.not_mem_nil, or_false] at h
  rcases h with rfl | rfl | rfl | rfl | rfl | rfl
  · exact ⟨.init, rfl⟩
  · exact ⟨.seed 0, rfl⟩
  · exact ⟨.getcrc, rfl⟩
  · exact ⟨.fold 0 0, rfl⟩
  · exact ⟨.tblrd 0, rfl⟩
  · exact ⟨.tblent 0 0, rfl⟩

section
variable {w : CommandWord}

theorem selects_row_of_decode {i : Instr} (h : decode w = .command i) : i.row.selects w := by
  obtain ⟨hopc, hzero, -⟩ := fields_of_decode h
  exact (i.selects_row_iff w).2 ⟨hopc, hzero⟩

theorem exists_decode_of_selects {r : OpcodeRow} (hr : r ∈ opcodeTable) (h : r.selects w) :
    ∃ i, decode w = .command i ∧ i.row = r := by
  obtain ⟨i, rfl⟩ := exists_instr_row_eq hr
  obtain ⟨hopc, hzero⟩ := (i.selects_row_iff w).1 h
  exact ⟨i.withFields w, decode_of_fields hopc hzero, i.row_withFields w⟩

/-- At most one row selects a word, since the word decodes to one command. -/
theorem selects_unique {r q : OpcodeRow} (hr : r ∈ opcodeTable) (hq : q ∈ opcodeTable) (hrw : r.selects w)
    (hqw : q.selects w) : r = q := by
  obtain ⟨i, hi, rfl⟩ := exists_decode_of_selects hr hrw
  obtain ⟨j, hj, rfl⟩ := exists_decode_of_selects hq hqw
  rw [Decoded.command.inj (hi.symm.trans hj)]

end

/-! ## The encoder, by fields -/

/-- The encoder's word as its fields, most significant first. -/
theorem packFields_eq_append (opc : BitVec 8) (bits : BitVec 6) (lenm1 : BitVec 2) (data : U32) :
    packFields opc bits lenm1 data = opc ++ 0#2 ++ (bits ||| lenm1.setWidth 6) ++ 0#16 ++ data := by
  refine BitVec.eq_of_getLsbD_eq fun j hj => ?_
  rw [getLsbD_packFields]
  have hbits : 54 ≤ j → bits.getLsbD (j - 48) = false := fun h => BitVec.getLsbD_of_ge bits _ (by omega)
  have hlenm1 : 50 ≤ j → lenm1.getLsbD (j - 48) = false := fun h => BitVec.getLsbD_of_ge lenm1 _ (by omega)
  simp only [BitVec.getLsbD_append, BitVec.getLsbD_or, BitVec.getLsbD_setWidth, BitVec.getLsbD_zero, Nat.sub_sub]
  grind

end Sys2Proof

namespace Sys2Proof.Machine

/-! ## Responses -/

/-- Every command answers with one response, after those given before, and leaves the events to come. -/
theorem exec_answers (i : Instr) (s : State) :
    ∃ c st d, exec i s = .next ⟨c, s.inputs, s.responses ++ [responseWord st d]⟩ := by
  cases i with
  | init => exact ⟨_, _, _, updateCrc_eq _ s⟩
  | seed data => exact ⟨_, _, _, updateCrc_eq _ s⟩
  | getcrc => exact ⟨_, _, _, complete_eq _ s⟩
  | fold n data => exact ⟨_, _, _, updateCrc_eq _ s⟩
  | tblrd index8 => exact ⟨_, _, _, complete_eq _ s⟩
  | tblent bits index =>
    by_cases hb : widthValid bits
    · by_cases hi : indexInTable bits index
      · exact ⟨_, _, _, execTblent_valid hb hi s⟩
      · exact ⟨_, _, _, execTblent_badIndex hb hi s⟩
    · exact ⟨_, _, _, execTblent_badWidth hb index s⟩

/-- So does every word, whether it spells a command or not. -/
theorem runCommand_answers (w : CommandWord) (s : State) :
    ∃ c st d, runCommand w s = .next ⟨c, s.inputs, s.responses ++ [responseWord st d]⟩ := by
  cases h : decode w with
  | command i => rw [runCommand_command h]; exact exec_answers i s
  | illegal why => rw [runCommand_illegal h]; exact ⟨_, _, _, raise_eq _ s⟩

theorem step_reset {s : State} {e : Input} {rest : List Input} (h : s.inputs = e :: rest)
    (notCommand : ∀ w, e ≠ .command w) : step s = .next ⟨Config.resetCrc, rest, s.responses⟩ := by
  obtain ⟨c, es, given⟩ := s
  obtain rfl : es = e :: rest := h
  cases e with
  | command w => exact absurd rfl (notCommand w)
  | reset => exact step_cons_reset c rest given
  | resetDuring w => exact step_cons_resetDuring c w rest given

theorem step_command {s : State} {w : CommandWord} {rest : List Input} (h : s.inputs = .command w :: rest) :
    step s = runCommand w ⟨s.crc, rest, s.responses⟩ := by
  obtain ⟨c, es, given⟩ := s
  obtain rfl : es = .command w :: rest := h
  exact step_cons_command c w rest given

theorem responseWord_illegal : responseWord .illegal 0#32 = 0x0000000100000000#64 := by decide

/-- A word that spells no command is answered with ILLEGAL and RDATA 0 (rules R45, R78, R82). -/
theorem step_of_no_command {s : State} {w : CommandWord} {rest : List Input} (h : s.inputs = .command w :: rest)
    (undecoded : ∀ i, decode w ≠ .command i) :
    step s = .next ⟨s.crc, rest, s.responses ++ [0x0000000100000000#64]⟩ := by
  rw [step_command h]
  cases hw : decode w with
  | command i => exact absurd hw (undecoded i)
  | illegal why => rw [runCommand_illegal hw, raise_eq, responseWord_illegal]

/-- Settles O17: a command's step is `runCommand`, which answers once, and a response word is its three fields. -/
theorem oneResponsePerCommand : Obligations.OneResponsePerCommand := by
  intro s t e rest hs hstep
  by_cases hcommand : ∃ w, e = .command w
  · obtain ⟨w, rfl⟩ := hcommand
    obtain ⟨c, st, d, hrun⟩ := runCommand_answers w ⟨s.crc, rest, s.responses⟩
    rw [step_command hs, hrun] at hstep
    obtain rfl := Host.Outcome.next.inj hstep
    have fields : responseWord st d = 0#30 ++ statCode st ++ d := responseWord_eq_append st d
    exact ⟨rfl, fun _ => ⟨statCode st, d, by rw [fields], fields.symm⟩, fun h => absurd rfl (h w)⟩
  · have notCommand : ∀ w, e ≠ .command w := not_exists.1 hcommand
    rw [step_reset hs notCommand] at hstep
    obtain rfl := Host.Outcome.next.inj hstep
    exact ⟨rfl, fun h => absurd h hcommand, fun _ => rfl⟩

/-! ## Decoding -/

/-- Settles O24: both the table's rows and the decoder's cases are an OPC and reserved bits that are zero. -/
theorem decodeAgreesWithOpcodeTable : Obligations.DecodeAgreesWithOpcodeTable := by
  refine ⟨fun _ i h => ⟨i.row_mem_opcodeTable, selects_row_of_decode h⟩, fun _ _ => exists_decode_of_selects,
    fun _ _ _ => selects_unique, fun w s rest unselected hs => ?_⟩
  exact step_of_no_command hs fun i hi => unselected i.row i.row_mem_opcodeTable (selects_row_of_decode hi)

/-- Settles O25: if the word decoded to a command, its OPC would be the command's, which leaves one of the
alternatives at most, and the bits that one wants set would be zero. -/
theorem reservedWordsAnswerIllegal : Obligations.ReservedWordsAnswerIllegal := by
  refine ⟨fun s w rest hs reserved => step_of_no_command hs fun i hi => ?_,
    fun s rest hs => step_of_no_command hs fun i hi => ?_⟩
  · obtain ⟨hopc, hzero, -⟩ := fields_of_decode hi
    simp only [show w.extractLsb' 56 8 = i.opc from hopc] at reserved
    cases i <;> simp only [Instr.reservedZero, reservedOkN, reservedOkD, reservedOkF, reservedOkT, reservedOkR,
      Bool.and_eq_true, beq_iff_eq] at hzero <;> simp [Instr.opc, hzero] at reserved
  · cases (show decode 0#64 = .illegal .reservedOpcode by decide).symm.trans hi

/-! ## Encoding -/

/-- Settles O26: each format is the general layout with its unused fields zero. -/
theorem formatsPlaceFields : Obligations.FormatsPlaceFields := by
  refine ⟨by decide, by decide, fun d => ?_, fun n d _ _ => ?_, fun b i _ => ?_, fun i => ?_⟩
  · rw [encode, packFields_eq_append]
    exact congrArg (· ++ d)
      (show 0x02#8 ++ 0#2 ++ (0#6 ||| BitVec.setWidth 6 0#2) ++ 0#16 = 0x02#8 ++ 0#24 by decide)
  · have lenm1AboveBits : ∀ lenm1 : BitVec 2,
        0x10#8 ++ 0#2 ++ (0#6 ||| lenm1.setWidth 6) = 0x10#8 ++ 0#6 ++ lenm1 := by decide
    rw [encode, packFields_eq_append, lenm1AboveBits]
  · rw [encode, packFields_eq_append, BitVec.setWidth_zero, BitVec.or_zero]
  · rw [encode, packFields_eq_append, BitVec.setWidth_eq_append (x := i) (by decide : 8 ≤ 32)]
    calc 0x20#8 ++ 0#2 ++ (0#6 ||| BitVec.setWidth 6 0#2) ++ 0#16 ++ (0#24 ++ i)
        = 0x20#8 ++ 0#2 ++ (0#6 ||| BitVec.setWidth 6 0#2) ++ 0#16 ++ 0#24 ++ i := BitVec.append_assoc.symm
      _ = 0x20#8 ++ 0#48 ++ i := congrArg (· ++ i) (by decide)

end Sys2Proof.Machine
end

section
/-! PROOFS. The table (40_table_builder.md rules R53, R58): BuildTable lists the entries by index, and TBLRD answers the
one at INDEX8. -/

namespace Sys2Proof.Machine

/-! ## The table's entries -/

@[simp] theorem length_buildTable (b : Nat) : (buildTable b).length = 2 ^ b := by
  rw [buildTable, List.length_map, List.length_range]

theorem getElem?_buildTable {b i : Nat} (h : i < 2 ^ b) :
    (buildTable b)[i]? = some (tableEntry b (BitVec.ofNat 32 i)) := by
  rw [buildTable, List.getElem?_map, List.getElem?_range h, Option.map_some]

/-- The engine's table is BuildTable(8): every byte is the index of an entry of it. -/
theorem getElem?_buildTable_eight (i : Byte) : (buildTable 8)[i.toNat]? = some (tbl i) := by
  rw [getElem?_buildTable i.isLt, BitVec.ofNat_toNat]
  rfl

theorem divStep_zero : divStep 0#32 = 0#32 := divStep_of_top_clear rfl

theorem divPow_of_zero (k : Nat) : divPow k 0#32 = 0#32 := by
  induction k with
  | zero => rfl
  | succ k ih => rw [divPow_succ, divStep_zero, ih]

/-- Entry 0 is 0 at every width (rule R56). -/
theorem tableEntry_zero (b : Nat) : tableEntry b 0#32 = 0#32 := by
  rw [tableEntry_def, BitVec.zero_shiftLeft, divPow_of_zero]

theorem tbl_zero : tbl 0#8 = 0#32 := tableEntry_zero Config.engineTableBits

/-- Settles O28: BuildTable is a map over the indices in increasing order, so entry i is the table entry of i. -/
theorem buildTableListsEntries : Obligations.BuildTableListsEntries :=
  ⟨fun b _ _ => ⟨length_buildTable b, fun _ => getElem?_buildTable⟩, getElem?_buildTable_eight, length_buildTable 8⟩

/-! ## TBLRD -/

theorem exec_tblrd (i : Byte) (s : State) : exec (.tblrd i) s = complete (tbl i) s := rfl

/-- TBLRD in full: the table's entry under an OK status, and nothing else (rules R48, R58). -/
theorem exec_tblrd_eq (i : Byte) (s : State) :
    exec (.tblrd i) s = .next ⟨s.crc, s.inputs, s.responses ++ [0x00000000#32 ++ tbl i]⟩ := by
  rw [exec_tblrd, complete_eq, responseWord_ok]

theorem decode_of_tblrd_opc {w : CommandWord} (h : opcField w = 0x20#8) : decode w =
    if w.extractLsb' 8 48 = 0#48 then .command (.tblrd (w.extractLsb' 0 8)) else .illegal .reservedBit := by
  rw [decode_of_opc (i := .tblrd 0) h]
  simp only [ifReservedZero, Instr.reservedZero, Instr.withFields, reservedOkR, index8Field, beq_iff_eq]

/-- Settles O14: TBLRD answers `tbl`, which is BuildTable(8) by index, and its entry 0 is 0; the decoder's case of the
OPC gives the rest. -/
theorem tblrdReadsEngineTable : Obligations.TblrdReadsEngineTable := by
  refine ⟨fun i s => ⟨tbl i, getElem?_buildTable_eight i, exec_tblrd_eq i s⟩, fun s => ?_, fun _ => decode_of_tblrd_opc⟩
  rw [exec_tblrd_eq, tbl_zero, BitVec.zero_append_zero]

end Sys2Proof.Machine
end

section
/-! PROOFS. INIT, SEED and GETCRC (41_crc_engine.md rules R65, R66, R68): what each writes to CRC and answers, and which
words of its OPC are the command. -/

namespace Sys2Proof.Machine

/-! ## What the commands do -/

/-- A write of CRC in full: the new value under an OK status, and nothing else (rule R48). -/
theorem updateCrc_eq_append (v : U32) (s : State) :
    updateCrc v s = .next ⟨v, s.inputs, s.responses ++ [0x00000000#32 ++ v]⟩ := by
  rw [updateCrc_eq, responseWord_ok]

theorem exec_init (s : State) : exec .init s = updateCrc Config.initValue s := rfl

theorem exec_seed (d : U32) (s : State) : exec (.seed d) s = updateCrc d s := rfl

/-- The default seed under an OK status. -/
theorem okResponse_initValue : 0x00000000#32 ++ Config.initValue = 0x00000000FFFFFFFF#64 := by decide

/-- INIT in full (rule R65). -/
theorem exec_init_eq (s : State) :
    exec .init s = .next ⟨Config.initValue, s.inputs, s.responses ++ [0x00000000FFFFFFFF#64]⟩ := by
  rw [exec_init, updateCrc_eq_append, okResponse_initValue]

/-- SEED in full (rule R66). -/
theorem exec_seed_eq (d : U32) (s : State) :
    exec (.seed d) s = .next ⟨d, s.inputs, s.responses ++ [0x00000000#32 ++ d]⟩ := by
  rw [exec_seed, updateCrc_eq_append]

/-- GETCRC in full (rule R68). -/
theorem exec_getcrc_eq (s : State) :
    exec .getcrc s = .next ⟨s.crc, s.inputs, s.responses ++ [0x00000000#32 ++ s.crc]⟩ := by
  rw [exec_getcrc, complete_eq, responseWord_ok]

/-- Straight after reset CRC is the default seed (rule R17). -/
theorem reset_crc : State.reset.crc = Config.initValue := rfl

/-! ## Which words are the commands -/

/-- A format with one range of reserved bits: the word is the command if that range is zero (rule R46). -/
theorem ifReservedZero_beq {n : Nat} (x : BitVec n) (i : Instr) :
    ifReservedZero (x == 0#n) i = if x = 0#n then .command i else .illegal .reservedBit := by
  simp only [ifReservedZero, beq_iff_eq]

section
variable {w : CommandWord}

theorem decode_of_init_opc (h : opcField w = 0x01#8) : decode w =
    if w.extractLsb' 0 56 = 0#56 then .command .init else .illegal .reservedBit :=
  (decode_of_opc (i := .init) h).trans (ifReservedZero_beq _ _)

theorem decode_of_seed_opc (h : opcField w = 0x02#8) : decode w =
    if w.extractLsb' 32 24 = 0#24 then .command (.seed (w.extractLsb' 0 32)) else .illegal .reservedBit :=
  (decode_of_opc (i := .seed 0) h).trans (ifReservedZero_beq _ _)

theorem decode_of_getcrc_opc (h : opcField w = 0x03#8) : decode w =
    if w.extractLsb' 0 56 = 0#56 then .command .getcrc else .illegal .reservedBit :=
  (decode_of_opc (i := .getcrc) h).trans (ifReservedZero_beq _ _)

end

/-! ## The obligations -/

/-- Settles O9: INIT's effect is the same from every state, and straight after reset CRC is the value it writes; the
decoder's case of the OPC gives the rest. -/
theorem initSetsDefaultSeed : Obligations.InitSetsDefaultSeed := by
  refine ⟨exec_init_eq, ?_, fun _ => decode_of_init_opc⟩
  rw [exec_init_eq, reset_crc]

/-- Settles O10: SEED and INIT are one write of CRC, of DATA and of the default seed; the decoder's case of the OPC gives
the rest. -/
theorem seedSetsCallersSeed : Obligations.SeedSetsCallersSeed := by
  refine ⟨exec_seed_eq, fun s => ?_, fun _ => decode_of_seed_opc⟩
  rw [exec_seed, exec_init]

/-- Settles O11: GETCRC answers CRC as it stands, which straight after reset is the default seed; the decoder's case of the
OPC gives the rest. -/
theorem getcrcReadsAccumulator : Obligations.GetcrcReadsAccumulator := by
  refine ⟨exec_getcrc_eq, ?_, fun _ => decode_of_getcrc_opc⟩
  rw [exec_getcrc_eq, reset_crc, okResponse_initValue]

end Sys2Proof.Machine
end

section
/-! PROOFS. Entry points (42_entry_points.md rules R69 to R72): the encoding of a well-formed command runs that command,
so COMPUTE runs as its SEED, the FOLDs of its buffer and GETCRC, and a list of commands that only read answers each of
them in order. -/

namespace Sys2Proof

/-! ## The encoding of a well-formed command decodes to it -/

theorem Instr.selects_row_encode {i : Instr} (h : i.wf = true) : i.row.selects (encode i) := by
  cases i with
  | init => exact Laws.SelectsRow.init h
  | seed data => exact Laws.SelectsRow.seed data h
  | getcrc => exact Laws.SelectsRow.getcrc h
  | fold n data => exact Laws.SelectsRow.fold n data h
  | tblrd index8 => exact Laws.SelectsRow.tblrd index8 h
  | tblent bits index => exact Laws.SelectsRow.tblent bits index h

/-- The fields of the encoding hold the operands: a well-formed command's fit them (rules R43, R49). -/
theorem Instr.withFields_encode {i : Instr} (h : i.wf = true) : i.withFields (encode i) = i := by
  cases i with
  | init => rfl
  | seed data => simp [withFields, encode]
  | getcrc => rfl
  | fold n data =>
    have chunkLength : Instr.chunkLengthOk n := of_decide_eq_true h
    simp [withFields, encode, lenm1_toNat_add_one chunkLength, -BitVec.toNat_ofNat]
  | tblrd index8 => simp [withFields, encode]
  | tblent bits index =>
    have bitsField : bits ≤ 63 := of_decide_eq_true h
    simp [withFields, encode, Nat.mod_eq_of_lt (Nat.lt_succ_of_le bitsField)]

theorem Instr.wf_tblent {bits : Nat} (h : Instr.bitsFieldOk bits) (index : U32) : (Instr.tblent bits index).wf = true :=
  decide_eq_true h

/-- The encoding has the OPC and the zero bits of the command's row, and its operands (rules R45, R49). -/
theorem decode_encode {i : Instr} (h : i.wf = true) : decode (encode i) = .command i := by
  obtain ⟨hopc, hzero⟩ := (i.selects_row_iff _).1 (Instr.selects_row_encode h)
  rw [decode_of_fields hopc hzero, Instr.withFields_encode h]

end Sys2Proof

namespace Sys2Proof.Machine

/-- A delivered command that is well formed is the one the step runs (rules R36, R49). -/
theorem step_encode {i : Instr} (h : i.wf = true) (c : U32) (rest : List Input) (given : List ResponseWord) :
    step ⟨c, .command (encode i) :: rest, given⟩ = exec i ⟨c, rest, given⟩ := by
  rw [step_cons_command, runCommand_command (decode_encode h)]

theorem eq_mk_of_inputs_eq {s : State} {es : List Input} (h : s.inputs = es) : s = ⟨s.crc, es, s.responses⟩ := by
  rw [← h]

/-! ## COMPUTE and CRC32 -/

section
variable (seed c : U32) (buffer : List Byte) (rest : List Input) (given : List ResponseWord)

/-- The first step of COMPUTE leaves the FOLDs of the buffer to run from CRC at the seed (rules R66, R69). -/
theorem step_computeCommands : step ⟨c, deliver (computeCommands seed buffer) ++ rest, given⟩ =
    .next ⟨seed, deliver ((chunks buffer).map foldb ++ [.getcrc]) ++ rest, given ++ [responseWord .ok seed]⟩ := by
  rw [computeCommands, deliver_cons, List.cons_append, step_encode rfl, exec_seed, updateCrc_eq]

/-- The first step of CRC32 is that of COMPUTE with the default seed (rules R65, R70). -/
theorem step_crc32Commands : step ⟨c, deliver (crc32Commands buffer) ++ rest, given⟩ =
    step ⟨c, deliver (computeCommands Config.initValue buffer) ++ rest, given⟩ := by
  rw [step_computeCommands, crc32Commands, deliver_cons, List.cons_append, step_encode rfl, exec_init, updateCrc_eq]

end

/-- Settles O38: SEED sets CRC to the seed, the FOLDs lead from there to compute of the buffer, by induction over its
chunks, and GETCRC answers that. -/
theorem computeSequenceRefinesCompute : Obligations.ComputeSequenceRefinesCompute := by
  intro s seed buffer rest hs
  obtain ⟨rs, hlength, hclean, hfolds⟩ := runSteps_foldBuffer buffer 1 seed (.command (encode .getcrc) :: rest)
    (s.responses ++ [responseWord .ok seed])
  refine ⟨responseWord .ok seed :: rs, by rw [List.length_cons, hlength],
    List.forall_mem_cons.2 ⟨statOf_responseWord _ _, hclean⟩, ?_⟩
  have hseed := step_computeCommands seed s.crc buffer rest s.responses
  rw [← eq_mk_of_inputs_eq hs, deliver_append, List.append_assoc] at hseed
  calc runSteps ((chunks buffer).length + 2) s
      = runSteps ((chunks buffer).length + 1) ⟨seed, _, _⟩ := runSteps_succ hseed
    _ = runSteps 1 ⟨compute seed buffer, .command (encode .getcrc) :: rest, _⟩ := hfolds
    _ = .next ⟨compute seed buffer, rest, _ ++ [responseWord .ok (compute seed buffer)]⟩ :=
        runSteps_succ (step_getcrc _ _ _)
    _ = _ := by simp only [List.append_assoc, List.cons_append, List.nil_append]

/-- Settles O39: the two sequences are in the same state after their first step, so every longer run agrees. -/
theorem crc32IsComputeWithDefaultSeed : Obligations.Crc32IsComputeWithDefaultSeed := by
  refine ⟨fun _ => rfl, fun s buffer rest k hk => ?_⟩
  obtain ⟨k, rfl⟩ := Nat.exists_eq_add_of_le' hk
  have hcompute := step_computeCommands Config.initValue s.crc buffer rest s.responses
  have hcrc32 := (step_crc32Commands s.crc buffer rest s.responses).trans hcompute
  exact (runSteps_succ hcrc32).trans (runSteps_succ hcompute).symm

theorem compute_nil (seed : U32) : compute seed [] = seed := by rw [compute_eq_foldl, chunks_nil, List.foldl_nil]

theorem computeCommands_nil (seed : U32) : computeCommands seed [] = [.seed seed, .getcrc] := by
  rw [computeCommands, chunks_nil, List.map_nil, List.nil_append]

theorem crc32Commands_nil : crc32Commands [] = [.init, .getcrc] := by
  rw [crc32Commands, chunks_nil, List.map_nil, List.nil_append]

/-- Settles O40: an empty buffer has no chunks. -/
theorem emptyBufferReturnsSeed : Obligations.EmptyBufferReturnsSeed :=
  ⟨fun seed => ⟨compute_nil seed, computeCommands_nil seed⟩, compute_nil Config.initValue, crc32Commands_nil⟩

/-! ## BUILDTABLE -/

section
variable {α : Type} (command : α → Instr) (value : α → U32)

/-- Well-formed commands that answer a value and change nothing take one step each and answer their values in order. -/
theorem runSteps_readers {xs : List α} (wf : ∀ x ∈ xs, (command x).wf = true)
    (reads : ∀ x ∈ xs, ∀ s, exec (command x) s = complete (value x) s) (c : U32) (rest : List Input)
    (given : List ResponseWord) :
    runSteps xs.length ⟨c, deliver (xs.map command) ++ rest, given⟩ =
      .next ⟨c, rest, given ++ xs.map fun x => responseWord .ok (value x)⟩ := by
  induction xs generalizing given with
  | nil => simp
  | cons x xs ih =>
    obtain ⟨wfx, wf⟩ := List.forall_mem_cons.1 wf
    obtain ⟨readsx, reads⟩ := List.forall_mem_cons.1 reads
    have hstep : step ⟨c, deliver ((x :: xs).map command) ++ rest, given⟩ =
        .next ⟨c, deliver (xs.map command) ++ rest, given ++ [responseWord .ok (value x)]⟩ := by
      rw [List.map_cons, deliver_cons, List.cons_append, step_encode wfx, readsx, complete_eq]
    rw [List.length_cons, runSteps_succ hstep, ih wf reads, List.append_assoc, List.map_cons, List.singleton_append]

theorem clean_okResponses (xs : List α) : clean (xs.map fun x => responseWord .ok (value x)) :=
  List.forall_mem_map.2 fun _ _ => statOf_responseWord _ _

/-- The host takes the values of clean responses as the table (rule R72). -/
theorem buildTableResult_okResponses (xs : List α) :
    buildTableResult (xs.map fun x => responseWord .ok (value x)) = .ok (xs.map value) := by
  simp [buildTableResult, statCode]

end

/-- An error of width makes the host report ConfigurationError, whatever else is answered (rule R72). -/
theorem buildTableResult_of_cfgErr {r : ResponseWord} (h : statOf r = statCode .cfgErr) (rs : List ResponseWord) :
    buildTableResult (r :: rs) = .error .configurationError := by
  simp [buildTableResult, h]

theorem exec_tblent (b : Nat) (i : U32) (s : State) : exec (.tblent b i) s = execTblent b i s := rfl

/-- An index of BuildTable(b) is in the table of width b as INDEX carries it. -/
theorem indexInTable_ofNat {b i : Nat} (h : i < 2 ^ b) : indexInTable b (BitVec.ofNat 32 i) := by
  rw [indexInTable, BitVec.toNat_ofNat]
  exact (Nat.mod_le i _).trans_lt h

/-- A byte that indexes the engine's table is the same index at any width of INDEX. -/
theorem tbl_ofNat {i : Nat} (h : i < 256) : tbl (BitVec.ofNat 8 i) = tableEntry 8 (BitVec.ofNat 32 i) := by
  rw [tbl, BitVec.setWidth_ofNat_of_le_of_lt (by decide) h]

theorem map_tbl_eq_buildTable : ((List.range 256).map fun i => tbl (BitVec.ofNat 8 i)) = buildTable 8 :=
  List.map_congr_left fun _ hi => tbl_ofNat (List.mem_range.1 hi)

/-- BUILDTABLE starts with index 0, at every width. -/
theorem exists_buildTableCommands_eq_cons (b : Nat) :
    ∃ others, buildTableCommands b = .tblent b 0#32 :: others := by
  obtain ⟨n, hn⟩ := Nat.exists_eq_add_one.2 (Nat.two_pow_pos b)
  rw [buildTableCommands, hn, List.range_succ_eq_map, List.map_cons]
  exact ⟨_, rfl⟩

theorem runSteps_buildTable {b : Nat} (hb : widthValid b) (c : U32) (rest : List Input) (given : List ResponseWord) :
    runSteps (2 ^ b) ⟨c, deliver (buildTableCommands b) ++ rest, given⟩ =
      .next ⟨c, rest,
        given ++ (List.range (2 ^ b)).map fun i => responseWord .ok (tableEntry b (BitVec.ofNat 32 i))⟩ := by
  have hfield : Instr.bitsFieldOk b := hb.2.trans (by decide)
  have run := runSteps_readers (fun i => .tblent b (BitVec.ofNat 32 i)) (fun i => tableEntry b (BitVec.ofNat 32 i))
    (xs := List.range (2 ^ b)) (fun _ _ => Instr.wf_tblent hfield _)
    (fun _ hi s => execTblent_valid hb (indexInTable_ofNat (List.mem_range.1 hi)) s) c rest given
  rwa [List.length_range] at run

theorem runSteps_readTable (c : U32) (rest : List Input) (given : List ResponseWord) :
    runSteps 256 ⟨c, deliver readTableCommands ++ rest, given⟩ =
      .next ⟨c, rest, given ++ (List.range 256).map fun i => responseWord .ok (tbl (BitVec.ofNat 8 i))⟩ := by
  have run := runSteps_readers (fun i => .tblrd (BitVec.ofNat 8 i)) (fun i => tbl (BitVec.ofNat 8 i))
    (xs := List.range 256) (fun _ _ => rfl) (fun _ _ s => exec_tblrd _ s) c rest given
  rwa [List.length_range] at run

/-- At an invalid width that BITS can hold, the first command of BUILDTABLE answers CFG_ERR (rules R72, R79). -/
theorem step_buildTable_badWidth {b : Nat} (hfield : Instr.bitsFieldOk b) (hb : ¬ widthValid b) (c : U32)
    (rest : List Input) (given : List ResponseWord) :
    ∃ es, step ⟨c, deliver (buildTableCommands b) ++ rest, given⟩ =
      .next ⟨c, es, given ++ [responseWord .cfgErr 0#32]⟩ := by
  obtain ⟨others, hcommands⟩ := exists_buildTableCommands_eq_cons b
  refine ⟨deliver others ++ rest, ?_⟩
  rw [hcommands, deliver_cons, List.cons_append, step_encode (Instr.wf_tblent hfield _), exec_tblent,
    execTblent_badWidth hb, raise_eq]

/-- Settles O41: at a valid width every TBLENT reads its entry, as every TBLRD does, and the host lists them; at an
invalid width the first one answers CFG_ERR, which the host reports. -/
theorem buildTableSequenceReadsTable : Obligations.BuildTableSequenceReadsTable := by
  refine ⟨fun s b rest pos le hs => ?_, fun s rest hs => ?_, fun s b rest invalid hs => ?_⟩
  · have run := runSteps_buildTable ⟨pos, le⟩ s.crc rest s.responses
    rw [← eq_mk_of_inputs_eq hs] at run
    exact ⟨_, run, clean_okResponses _ _, buildTableResult_okResponses _ _⟩
  · have run := runSteps_readTable s.crc rest s.responses
    rw [← eq_mk_of_inputs_eq hs] at run
    refine ⟨_, run, clean_okResponses _ _, ?_⟩
    rw [buildTableResult_okResponses, map_tbl_eq_buildTable]
  · have badWidth : ¬ (1 ≤ b ∧ b ≤ 32) := by omega
    have hfield : b ≤ 63 := by omega
    obtain ⟨es, hstep⟩ := step_buildTable_badWidth hfield badWidth s.crc rest s.responses
    rw [← eq_mk_of_inputs_eq hs] at hstep
    have cfgErr : statOf (responseWord .cfgErr 0#32) = statCode .cfgErr := statOf_responseWord _ _
    exact ⟨_, _, hstep, rfl, rfl, cfgErr, buildTableResult_of_cfgErr cfgErr⟩

end Sys2Proof.Machine
end

section
/-! PROOFS. Errors (60_exceptions.md rules R77 to R83): what a word decodes to fixes its status, a command's step
answers with that status, and one that is not OK comes with CRC as it was and RDATA 0. -/

namespace Sys2Proof

open Machine

/-! ## The status of a command and of a word -/

/-- STAT a command answers: TBLENT checks its width and then its index, and no other command can fail (rules R77, R79,
R80, R83). -/
def Instr.status : Instr → Status
  | .init => .ok
  | .seed _ => .ok
  | .getcrc => .ok
  | .fold _ _ => .ok
  | .tblrd _ => .ok
  | .tblent b i => if widthValid b then (if indexInTable b i then .ok else .rangeErr) else .cfgErr

/-- STAT a word answers: decoding precedes execution (rules R78, R83). -/
def Decoded.status : Decoded → Status
  | .command i => i.status
  | .illegal _ => .illegal

theorem Instr.status_tblent (b : Nat) (i : U32) : (tblent b i).status =
    if widthValid b then (if indexInTable b i then .ok else .rangeErr) else .cfgErr := rfl

section
variable {b : Nat} {i : U32}

/-! The three cases of TBLENT have three statuses, so the status tells the case. -/

theorem Instr.status_tblent_eq_cfgErr_iff : (tblent b i).status = .cfgErr ↔ ¬ widthValid b := by
  rw [status_tblent]
  split_ifs with hb hi
  · exact iff_of_false nofun (absurd hb)
  · exact iff_of_false nofun (absurd hb)
  · exact iff_of_true rfl hb

theorem Instr.status_tblent_eq_rangeErr_iff :
    (tblent b i).status = .rangeErr ↔ widthValid b ∧ ¬ indexInTable b i := by
  rw [status_tblent]
  split_ifs with hb hi
  · exact iff_of_false nofun fun h => h.2 hi
  · exact iff_of_true rfl ⟨hb, hi⟩
  · exact iff_of_false nofun fun h => hb h.1

theorem Instr.status_tblent_eq_ok_iff : (tblent b i).status = .ok ↔ widthValid b ∧ indexInTable b i := by
  rw [status_tblent]
  split_ifs with hb hi
  · exact iff_of_true rfl ⟨hb, hi⟩
  · exact iff_of_false nofun fun h => hi h.2
  · exact iff_of_false nofun fun h => hb h.1

end

theorem Instr.status_ne_illegal (i : Instr) : i.status ≠ .illegal := by
  cases i with
  | tblent b i =>
    rw [status_tblent]
    split_ifs <;> decide
  | _ => exact nofun

theorem Instr.exists_eq_tblent_of_status_ne_ok {i : Instr} (h : i.status ≠ .ok) : ∃ b j, i = .tblent b j := by
  cases i with
  | tblent b j => exact ⟨b, j, rfl⟩
  | _ => exact absurd rfl h

/-- TBLENT is the only command whose status needs anything to be OK. -/
theorem Instr.status_eq_ok_iff (i : Instr) :
    i.status = .ok ↔ ∀ b j, i = .tblent b j → widthValid b ∧ indexInTable b j := by
  refine ⟨?_, fun h => of_not_not fun notOk => ?_⟩
  · rintro ok b j rfl
    exact status_tblent_eq_ok_iff.1 ok
  · obtain ⟨b, j, rfl⟩ := exists_eq_tblent_of_status_ne_ok notOk
    exact notOk (status_tblent_eq_ok_iff.2 (h b j rfl))

/-! What a word decodes to, by its status. -/

theorem Machine.not_widthValid_iff {b : Nat} : ¬ widthValid b ↔ b = 0 ∨ 32 < b := by
  show ¬ (1 ≤ b ∧ b ≤ 32) ↔ _
  omega

section
variable (d : Decoded)

theorem Decoded.status_eq_illegal_iff : d.status = .illegal ↔ ∃ why, d = .illegal why := by
  cases d with
  | command i => exact iff_of_false i.status_ne_illegal nofun
  | illegal why => exact iff_of_true rfl ⟨why, rfl⟩

theorem Decoded.status_eq_iff_command {st : Status} (h : st ≠ .illegal) :
    d.status = st ↔ ∃ i, d = .command i ∧ i.status = st := by
  cases d with
  | command i => simp [status]
  | illegal why => simpa [status] using h.symm

/-- An error of a command is an error of TBLENT. -/
theorem Decoded.status_eq_iff_tblent {st : Status} (illegal : st ≠ .illegal) (ok : st ≠ .ok) :
    d.status = st ↔ ∃ b j, d = .command (.tblent b j) ∧ (Instr.tblent b j).status = st := by
  rw [d.status_eq_iff_command illegal]
  constructor
  · rintro ⟨i, hd, hi⟩
    obtain ⟨b, j, rfl⟩ := Instr.exists_eq_tblent_of_status_ne_ok (hi.trans_ne ok)
    exact ⟨b, j, hd, hi⟩
  · rintro ⟨b, j, hd, hi⟩
    exact ⟨.tblent b j, hd, hi⟩

theorem Decoded.status_eq_cfgErr_iff :
    d.status = .cfgErr ↔ ∃ b i, d = .command (.tblent b i) ∧ (b = 0 ∨ 32 < b) := by
  simp only [d.status_eq_iff_tblent (st := .cfgErr) nofun nofun, Instr.status_tblent_eq_cfgErr_iff, not_widthValid_iff]

theorem Decoded.status_eq_rangeErr_iff :
    d.status = .rangeErr ↔ ∃ b i, d = .command (.tblent b i) ∧ 1 ≤ b ∧ b ≤ 32 ∧ 2 ^ b ≤ i.toNat := by
  simp only [d.status_eq_iff_tblent (st := .rangeErr) nofun nofun, Instr.status_tblent_eq_rangeErr_iff, not_lt,
    and_assoc]

theorem Decoded.status_eq_ok_iff :
    d.status = .ok ↔ ∃ i, d = .command i ∧ ∀ b j, i = .tblent b j → 1 ≤ b ∧ b ≤ 32 ∧ j.toNat < 2 ^ b := by
  simp only [d.status_eq_iff_command (st := .ok) nofun, Instr.status_eq_ok_iff, and_assoc]

end

end Sys2Proof

namespace Sys2Proof.Machine

/-! ## Every command's step answers with its status -/

/-- A command answers with its status, and where that is an error it keeps CRC and answers RDATA 0 (rules R77, R82). -/
theorem exec_status (i : Instr) (s : State) : ∃ c d,
    exec i s = .next ⟨c, s.inputs, s.responses ++ [responseWord i.status d]⟩ ∧
    (i.status ≠ .ok → c = s.crc ∧ d = 0#32) := by
  cases i with
  | init => exact ⟨_, _, updateCrc_eq _ s, absurd rfl⟩
  | seed data => exact ⟨_, _, updateCrc_eq _ s, absurd rfl⟩
  | getcrc => exact ⟨_, _, complete_eq _ s, absurd rfl⟩
  | fold n data => exact ⟨_, _, updateCrc_eq _ s, absurd rfl⟩
  | tblrd index8 => exact ⟨_, _, complete_eq _ s, absurd rfl⟩
  | tblent b i =>
    rw [exec_tblent]
    by_cases hb : widthValid b
    · by_cases hi : indexInTable b i
      · rw [execTblent_valid hb hi, Instr.status_tblent_eq_ok_iff.2 ⟨hb, hi⟩]
        exact ⟨_, _, complete_eq _ s, absurd rfl⟩
      · rw [execTblent_badIndex hb hi, Instr.status_tblent_eq_rangeErr_iff.2 ⟨hb, hi⟩]
        exact ⟨_, _, raise_eq _ s, fun _ => ⟨rfl, rfl⟩⟩
    · rw [execTblent_badWidth hb, Instr.status_tblent_eq_cfgErr_iff.2 hb]
      exact ⟨_, _, raise_eq _ s, fun _ => ⟨rfl, rfl⟩⟩

theorem step_status {s : State} {w : CommandWord} {rest : List Input} (h : s.inputs = .command w :: rest) : ∃ c d,
    step s = .next ⟨c, rest, s.responses ++ [responseWord (decode w).status d]⟩ ∧
    ((decode w).status ≠ .ok → c = s.crc ∧ d = 0#32) := by
  rw [step_command h]
  cases hw : decode w with
  | command i =>
    rw [runCommand_command hw]
    exact exec_status i _
  | illegal why => exact ⟨_, _, runCommand_illegal hw _, fun _ => ⟨rfl, rfl⟩⟩

/-- STAT is the code of the status, and no two statuses share a code (rule R77). -/
theorem statOf_responseWord_eq_iff (st st' : Status) (d : U32) :
    statOf (responseWord st d) = statCode st' ↔ st = st' := by
  rw [statOf_responseWord]
  exact ⟨statCode_injective, congrArg statCode⟩

/-- Settles O18: STAT is the code of the status of what the word decodes to, and each status has its one cause. -/
theorem statusReportsTheFirstCause : Obligations.StatusReportsTheFirstCause := by
  intro s w rest hs
  obtain ⟨c, d, hstep, -⟩ := step_status hs
  have stat (st : Status) : statOf (responseWord (decode w).status d) = statCode st ↔ (decode w).status = st :=
    statOf_responseWord_eq_iff _ st d
  exact ⟨_, _, hstep, rfl, (stat .illegal).trans (decode w).status_eq_illegal_iff,
    (stat .cfgErr).trans (decode w).status_eq_cfgErr_iff, (stat .rangeErr).trans (decode w).status_eq_rangeErr_iff,
    (stat .ok).trans (decode w).status_eq_ok_iff⟩

/-- Settles O19: the response is the step's own, so its STAT is not OK only if the word's status is an error. -/
theorem errorsWriteNoState : Obligations.ErrorsWriteNoState := by
  intro s t w rest r hs hstep hresponses hstat
  obtain ⟨c, d, hnext, herror⟩ := step_status hs
  obtain rfl := Host.Outcome.next.inj (hnext.symm.trans hstep)
  obtain rfl : responseWord (decode w).status d = r := List.singleton_inj.1 (List.append_cancel_left hresponses)
  obtain ⟨rfl, rfl⟩ := herror (mt (statOf_responseWord_eq_iff _ .ok d).2 hstat)
  exact ⟨rfl, rdataOf_responseWord _ _⟩

end Sys2Proof.Machine
end

section
/-! PROOFS. What reset does (rules R94, R95). -/

namespace Sys2Proof.Machine

/-- Settles O2: neither event is one that delivers a command to run, and `step_reset` says what every such event does. -/
theorem resetEventSetsCrcAndAnswersNothing : Obligations.ResetEventSetsCrcAndAnswersNothing := by
  intro s e rest hs hreset
  refine step_reset hs fun w => ?_
  obtain rfl | ⟨w', rfl⟩ := hreset
  · exact Input.noConfusion
  · exact Input.noConfusion

end Sys2Proof.Machine
end

section
/-! PROOFS. Steps and runs (10_state.md rule R16, 20_memory.md rules R26, R30): what a command, a step and a run do is
fixed by CRC and the events to come; the responses given before are only extended. -/

namespace Sys2Proof.Machine

/-! ## What one command does, from CRC alone -/

theorem exec_fold (n : Nat) (d : U32) (s : State) : exec (.fold n d) s = updateCrc (processWord s.crc n d) s := rfl

/-- CRC and the response after a command depend on CRC alone. A writer of CRC answers its new value, and any other
command keeps CRC (rules R7, R16, R27). -/
theorem exec_determined_by_crc (i : Instr) (c : U32) : ∃ c' r,
    (∀ es given, exec i ⟨c, es, given⟩ = .next ⟨c', es, given ++ [r]⟩) ∧
    (writesCrc i = true → r = responseWord .ok c') ∧ (writesCrc i = false → c' = c) := by
  cases i with
  | init => exact ⟨_, _, fun _ _ => updateCrc_eq _ _, fun _ => rfl, nofun⟩
  | seed data => exact ⟨_, _, fun _ _ => updateCrc_eq _ _, fun _ => rfl, nofun⟩
  | getcrc => exact ⟨c, _, fun _ _ => complete_eq c _, nofun, fun _ => rfl⟩
  | fold n data => exact ⟨processWord c n data, _, fun _ _ => exec_fold n data _, fun _ => rfl, nofun⟩
  | tblrd index8 => exact ⟨_, _, fun _ _ => complete_eq _ _, nofun, fun _ => rfl⟩
  | tblent b i =>
    by_cases hb : widthValid b
    · by_cases hi : indexInTable b i
      · exact ⟨_, _, fun _ _ => execTblent_valid hb hi _, nofun, fun _ => rfl⟩
      · exact ⟨_, _, fun _ _ => execTblent_badIndex hb hi _, nofun, fun _ => rfl⟩
    · exact ⟨_, _, fun _ _ => execTblent_badWidth hb i _, nofun, fun _ => rfl⟩

section
variable {i : Instr} {s t : State}

/-- Only INIT, SEED and FOLD write CRC (rule R27). -/
theorem exec_crc_of_not_writesCrc (h : exec i s = .next t) (reads : writesCrc i = false) : t.crc = s.crc := by
  obtain ⟨c, r, hexec, -, keeps⟩ := exec_determined_by_crc i s.crc
  obtain rfl := Host.Outcome.next.inj ((hexec s.inputs s.responses).symm.trans h)
  exact keeps reads

/-- A writer of CRC other than FOLD writes and answers a constant, so it does so again (rule R27). -/
theorem exec_again_of_start (start : startsComputation i = true) (h : exec i s = .next t) :
    ∃ r, t.responses = s.responses ++ [r] ∧ exec i t = .next ⟨t.crc, t.inputs, t.responses ++ [r]⟩ := by
  cases i with
  | init =>
    obtain rfl := Host.Outcome.next.inj ((exec_init_eq s).symm.trans h)
    exact ⟨_, rfl, exec_init_eq _⟩
  | seed data =>
    obtain rfl := Host.Outcome.next.inj ((exec_seed_eq data s).symm.trans h)
    exact ⟨_, rfl, exec_seed_eq data _⟩
  | getcrc | fold | tblrd | tblent => cases start

/-- A command that keeps CRC finds it as it was when it runs again. -/
theorem exec_again_of_not_writesCrc (reads : writesCrc i = false) (h : exec i s = .next t) :
    ∃ r, t.responses = s.responses ++ [r] ∧ exec i t = .next ⟨t.crc, t.inputs, t.responses ++ [r]⟩ := by
  obtain ⟨c, r, hexec, -, keeps⟩ := exec_determined_by_crc i s.crc
  obtain rfl := Host.Outcome.next.inj ((hexec s.inputs s.responses).symm.trans h)
  obtain rfl := keeps reads
  exact ⟨r, rfl, hexec _ _⟩

end

/-- Every writer of CRC but FOLD starts a computation. -/
theorem startsComputation_of_writesCrc {i : Instr} (writes : writesCrc i = true) (notFold : ∀ n d, i ≠ .fold n d) :
    startsComputation i = true := by
  cases i with
  | init | seed => rfl
  | fold n d => exact absurd rfl (notFold n d)
  | getcrc | tblrd | tblent => cases writes

/-- Settles O7: a command has one outcome, which `exec_answers` gives, and CRC changes in a writer only. -/
theorem execFrame : Obligations.ExecFrame := by
  intro i s t h
  obtain ⟨c, st, d, hexec⟩ := exec_answers i s
  have keeps : writesCrc i = false → t.crc = s.crc := exec_crc_of_not_writesCrc h
  obtain rfl := Host.Outcome.next.inj (hexec.symm.trans h)
  exact ⟨rfl, ⟨_, rfl⟩, keeps⟩

/-- Settles O16: INIT and SEED write a constant and the others keep CRC; a byte folded into the default seed twice gives
two values. -/
theorem commandsButFoldAreIdempotent : Obligations.CommandsButFoldAreIdempotent := by
  refine ⟨fun i s t notFold h => ?_, ?_⟩
  · cases hw : writesCrc i with
    | true => exact exec_again_of_start (startsComputation_of_writesCrc hw notFold) h
    | false => exact exec_again_of_not_writesCrc hw h
  · exact ⟨1, 0x31#32, State.reset, _, _, exec_fold _ _ _, exec_fold _ _ _, by decide +kernel⟩

/-! ## One step -/

/-- Settles O3: the step of a state without events is `idle`. -/
theorem idleStepChangesNothing : Obligations.IdleStepChangesNothing := by
  intro s hs
  rw [eq_mk_of_inputs_eq hs, step_nil]

/-- Settles O4: the step is `runCommand`, by what the word decodes to. -/
theorem stepRunsDecodedCommand : Obligations.StepRunsDecodedCommand := by
  intro s w rest hs
  refine ⟨fun i hi => ?_, fun why hwhy => step_of_no_command hs fun i hi => ?_⟩
  · rw [step_command hs, runCommand_command hi]
  · cases hwhy.symm.trans hi

/-- The opcode table's word is decoded as the command word it stands for (rule R45). -/
theorem decode_of_decodeTableWord {nbits w : Nat} {i : Instr} (h : decodeTableWord nbits w = some i) :
    decode (tableWord nbits w) = .command i := by
  unfold decodeTableWord at h
  cases hw : decode (tableWord nbits w) with
  | command j =>
    rw [hw] at h
    exact congrArg _ (Option.some.inj h)
  | illegal why =>
    rw [hw] at h
    cases h

/-- Settles O5: the placed word is the oldest event, and with it taken the state is as it was. -/
theorem placedWordRunsNext : Obligations.PlacedWordRunsNext := by
  intro s nbits w i h
  have hinputs : (s.withFetchWord nbits w).inputs = .command (tableWord nbits w) :: s.inputs := rfl
  rw [step_command hinputs, runCommand_command (decode_of_decodeTableWord h)]
  rfl

/-- Settles O8: with no event nothing changes, a word that spells no command keeps CRC, and so does a command that is no
writer. -/
theorem crcChangesOnlyByWritersOrReset : Obligations.CrcChangesOnlyByWritersOrReset := by
  intro s t hstep changed
  cases hs : s.inputs with
  | nil =>
    obtain rfl := Host.Outcome.next.inj ((idleStepChangesNothing s hs).symm.trans hstep)
    exact absurd rfl changed
  | cons e rest =>
    refine ⟨e, rest, rfl, ?_⟩
    cases e with
    | reset => exact .inl rfl
    | resetDuring w => exact .inr (.inl ⟨w, rfl⟩)
    | command w =>
      refine .inr (.inr ⟨w, ?_⟩)
      obtain ⟨runs, raises⟩ := stepRunsDecodedCommand s w rest hs
      cases hw : decode w with
      | command i =>
        rw [runs i hw] at hstep
        have keeps : writesCrc i = false → t.crc = s.crc := exec_crc_of_not_writesCrc (s := ⟨_, rest, _⟩) hstep
        exact ⟨i, rfl, rfl, eq_true_of_ne_false (mt keeps changed)⟩
      | illegal why =>
        obtain rfl := Host.Outcome.next.inj ((raises why hw).symm.trans hstep)
        exact absurd rfl changed

/-! ## The invariant of the responses -/

/-- A response word is well formed if it carries data under OK only (rules R48, R82). -/
theorem responseOk_responseWord {st : Status} {d : U32} (h : st ≠ .ok → d = 0#32) : responseOk (responseWord st d) := by
  refine ⟨upperOf_responseWord st d, fun hstat => ?_⟩
  rw [rdataOf_responseWord]
  exact h (mt (statOf_responseWord_eq_iff st .ok d).2 hstat)

theorem responsesOk_append {c : U32} {es : List Input} {given : List ResponseWord} {r : ResponseWord}
    (hgiven : ∀ q ∈ given, responseOk q) (hr : responseOk r) : responsesOk ⟨c, es, given ++ [r]⟩ :=
  List.forall_mem_append.2 ⟨hgiven, List.forall_mem_singleton.2 hr⟩

/-- Settles O20: a step gives at most one response more, which `step_status` gives as a status and its data, 0 for an
error. -/
theorem stepKeepsResponsesWellFormed : Obligations.StepKeepsResponsesWellFormed := by
  intro s t hok hstep
  cases hs : s.inputs with
  | nil =>
    obtain rfl := Host.Outcome.next.inj ((idleStepChangesNothing s hs).symm.trans hstep)
    exact hok
  | cons e rest =>
    by_cases hcommand : ∃ w, e = .command w
    · obtain ⟨w, rfl⟩ := hcommand
      obtain ⟨c, d, hnext, herror⟩ := step_status hs
      obtain rfl := Host.Outcome.next.inj (hnext.symm.trans hstep)
      exact responsesOk_append hok (responseOk_responseWord fun notOk => (herror notOk).2)
    · obtain rfl := Host.Outcome.next.inj ((step_reset hs (not_exists.1 hcommand)).symm.trans hstep)
      exact hok

/-- Settles O21: no response has been given. -/
theorem resetResponsesWellFormed : Obligations.ResetResponsesWellFormed :=
  fun _ hr => absurd hr List.not_mem_nil

/-! ## Runs -/

/-- A word's effect, like a command's, is fixed by CRC. -/
theorem runCommand_determined_by_crc (w : CommandWord) (c : U32) :
    ∃ c' r, ∀ es given, runCommand w ⟨c, es, given⟩ = .next ⟨c', es, given ++ [r]⟩ := by
  cases hw : decode w with
  | command i =>
    obtain ⟨c', r, hexec, -⟩ := exec_determined_by_crc i c
    exact ⟨c', r, fun es given => (runCommand_command hw _).trans (hexec es given)⟩
  | illegal why => exact ⟨c, _, fun es given => (runCommand_illegal hw _).trans (raise_eq _ _)⟩

/-- A step takes the oldest event, if there is one, and answers it if it is a command; CRC after it and the answer do
not depend on the responses given before (rules R16, R30). -/
theorem step_determined_by_crc (c : U32) (es : List Input) : ∃ c' rs, rs.length = commandCount (es.take 1) ∧
    ∀ given, step ⟨c, es, given⟩ = .next ⟨c', es.tail, given ++ rs⟩ := by
  match es with
  | [] => exact ⟨c, [], rfl, fun given => by rw [List.append_nil, step_nil, List.tail_nil]⟩
  | .reset :: rest => exact ⟨_, [], rfl, fun given => by rw [List.append_nil, step_cons_reset, List.tail_cons]⟩
  | .resetDuring w :: rest =>
    exact ⟨_, [], rfl, fun given => by rw [List.append_nil, step_cons_resetDuring, List.tail_cons]⟩
  | .command w :: rest =>
    obtain ⟨c', r, hrun⟩ := runCommand_determined_by_crc w c
    exact ⟨c', [r], rfl, fun given => (step_cons_command c w rest given).trans (hrun rest given)⟩

theorem commandCount_append (es es' : List Input) : commandCount (es ++ es') = commandCount es + commandCount es' := by
  induction es with
  | nil => rw [List.nil_append, commandCount, Nat.zero_add]
  | cons e es ih =>
    cases e with
    | command w => rw [List.cons_append, commandCount, commandCount, ih, Nat.add_right_comm]
    | reset | resetDuring => exact ih

/-- A run takes the events in order, as many as it has steps, and answers each command among them once; CRC after it and
the answers do not depend on the responses given before (rules R16, R30). -/
theorem runSteps_determined_by_crc (n : Nat) (c : U32) (es : List Input) :
    ∃ c' rs, rs.length = commandCount (es.take n) ∧
      ∀ given, runSteps n ⟨c, es, given⟩ = .next ⟨c', es.drop n, given ++ rs⟩ := by
  induction n generalizing c es with
  | zero => exact ⟨c, [], rfl, fun given => by rw [List.append_nil, List.drop_zero, runSteps_zero]⟩
  | succ n ih =>
    obtain ⟨c₁, rs₁, hlength₁, hstep⟩ := step_determined_by_crc c es
    obtain ⟨c₂, rs₂, hlength₂, hrun⟩ := ih c₁ es.tail
    refine ⟨c₂, rs₁ ++ rs₂, ?_, fun given => ?_⟩
    · have firstAndRest : es.take (n + 1) = es.take 1 ++ es.tail.take n := by
        cases es with
        | nil => simp
        | cons e es => rfl
      rw [firstAndRest, commandCount_append, List.length_append, hlength₁, hlength₂]
    · rw [runSteps_succ (hstep given), hrun, List.append_assoc, List.drop_tail]

/-- Settles O6: every step and every run has the outcome that CRC and the events to come give it. -/
theorem stepsAndRunsNeverStop : Obligations.StepsAndRunsNeverStop := by
  refine ⟨fun s => ?_, fun n s => ?_⟩
  · obtain ⟨c, rs, -, hstep⟩ := step_determined_by_crc s.crc s.inputs
    exact ⟨_, hstep s.responses⟩
  · obtain ⟨c, rs, -, hrun⟩ := runSteps_determined_by_crc n s.crc s.inputs
    exact ⟨_, hrun s.responses⟩

/-- Settles O44: the run's outcome is one for both states, each with its own earlier responses. -/
theorem behaviourDependsOnlyOnCrc : Obligations.BehaviourDependsOnlyOnCrc := by
  rintro n ⟨c, es, given⟩ ⟨_, _, given'⟩ rfl rfl
  obtain ⟨c', rs, -, hrun⟩ := runSteps_determined_by_crc n c es
  exact ⟨c', es.drop n, rs, hrun given, hrun given'⟩

/-- Settles O47: by induction on the number of steps, in `runSteps_determined_by_crc`. -/
theorem everyCommandIsAnsweredOnce : Obligations.EveryCommandIsAnsweredOnce := by
  intro s k _
  obtain ⟨c, rs, hlength, hrun⟩ := runSteps_determined_by_crc k s.crc s.inputs
  exact ⟨c, rs, hrun s.responses, hlength⟩

/-- Settles O45: after the SEED the two states differ in the responses given only. -/
theorem seedResumesSavedComputation : Obligations.SeedResumesSavedComputation := by
  rintro n s s' w rfl hs'
  obtain ⟨c, rs, -, hrun⟩ := runSteps_determined_by_crc n s.crc s.inputs
  have hseed : step s' = .next ⟨s.crc, s.inputs, s'.responses ++ [responseWord .ok s.crc]⟩ := by
    rw [eq_mk_of_inputs_eq hs', step_encode rfl, exec_seed, updateCrc_eq]
  exact ⟨c, s.inputs.drop n, rs, hrun s.responses, (runSteps_succ hseed).trans (hrun _)⟩

/-! ## A computation's result -/

/-- A run of delivered commands answers each once and goes on with the events after them; if none of them writes CRC, it
keeps CRC. -/
theorem runSteps_deliver (is : List Instr) (wf : ∀ i ∈ is, i.wf = true) (c : U32) : ∃ c' rs, rs.length = is.length ∧
    ((∀ i ∈ is, writesCrc i = false) → c' = c) ∧
    ∀ k rest given, runSteps (is.length + k) ⟨c, deliver is ++ rest, given⟩ = runSteps k ⟨c', rest, given ++ rs⟩ := by
  induction is generalizing c with
  | nil => exact ⟨c, [], rfl, fun _ => rfl, fun k rest given => by simp⟩
  | cons i is ih =>
    obtain ⟨wfi, wf⟩ := List.forall_mem_cons.1 wf
    obtain ⟨c₁, r, hexec, -, keeps⟩ := exec_determined_by_crc i c
    obtain ⟨c₂, rs, hlength, keepsAll, hrun⟩ := ih wf c₁
    refine ⟨c₂, r :: rs, congrArg _ hlength, fun reads => ?_, fun k rest given => ?_⟩
    · obtain ⟨readsi, reads⟩ := List.forall_mem_cons.1 reads
      exact (keepsAll reads).trans (keeps readsi)
    · have hstep : step ⟨c, deliver (i :: is) ++ rest, given⟩ = .next ⟨c₁, deliver is ++ rest, given ++ [r]⟩ := by
        rw [deliver_cons, List.cons_append, step_encode wfi, hexec]
      rw [List.length_cons, Nat.add_right_comm, runSteps_succ hstep, hrun, List.append_assoc, List.singleton_append]

/-- A list with a member that satisfies `p` has a last one. -/
theorem exists_last_of_exists {α : Type} {p : α → Bool} {l : List α} (h : ∃ x ∈ l, p x = true) :
    ∃ before x after, l = before ++ x :: after ∧ p x = true ∧ ∀ y ∈ after, p y = false := by
  obtain ⟨x, hfind⟩ := Option.isSome_iff_exists.1 (List.find?_isSome.2
    (show ∃ x ∈ l.reverse, p x = true by simpa only [List.mem_reverse] using h))
  obtain ⟨hx, after, before, hl, hafter⟩ := List.find?_eq_some_iff_append.1 hfind
  refine ⟨before.reverse, x, after.reverse, ?_, hx, fun y hy => ?_⟩
  · rw [← List.reverse_reverse (as := l), hl]
    simp
  · simpa using hafter y (List.mem_reverse.1 hy)

theorem writesCrc_of_startsComputation {i : Instr} (h : startsComputation i = true) : writesCrc i = true := by
  cases i with
  | init | seed => rfl
  | getcrc | fold | tblrd | tblent => cases h

/-- A writer of CRC answers the CRC it leaves, the commands after it that are no writers keep that, and GETCRC answers
it (rule R76). -/
theorem runSteps_lastWriter {i : Instr} {middle : List Instr} (wfi : i.wf = true) (wf : ∀ j ∈ middle, j.wf = true)
    (writes : writesCrc i = true) (reads : ∀ j ∈ middle, writesCrc j = false) (c : U32) (rest : List Input) :
    ∃ c' rs, rs.length = middle.length ∧ ∀ given,
      runSteps (middle.length + 1 + 1) ⟨c, deliver (i :: (middle ++ [.getcrc])) ++ rest, given⟩ =
        .next ⟨c', rest, given ++ [responseWord .ok c'] ++ rs ++ [responseWord .ok c']⟩ := by
  obtain ⟨c₁, r, hexec, answers, -⟩ := exec_determined_by_crc i c
  obtain ⟨c₂, rs, hlength, keeps, hrun⟩ := runSteps_deliver middle wf c₁
  obtain rfl := answers writes
  obtain rfl := keeps reads
  refine ⟨c₂, rs, hlength, fun given => ?_⟩
  have hwriter : step ⟨c, deliver (i :: (middle ++ [.getcrc])) ++ rest, given⟩ =
      .next ⟨c₂, deliver middle ++ (.command (encode .getcrc) :: rest), given ++ [responseWord .ok c₂]⟩ := by
    rw [deliver_cons, List.cons_append, step_encode wfi, hexec, deliver_append, List.append_assoc]
    rfl
  rw [runSteps_succ hwriter, hrun, runSteps_succ (step_getcrc _ _ _), runSteps_zero]

/-- Settles O46: the command that starts a computation writes CRC, so there is a last writer, and `runSteps_lastWriter`
says what the run gives from it on. -/
theorem computationResultIsLastWritersResponse : Obligations.ComputationResultIsLastWritersResponse := by
  rintro s _ rest ⟨start, others, rfl, hstart, -⟩ wf hs
  obtain ⟨before, i, middle, hsplit, writes, reads⟩ : ∃ before i middle, start :: others = before ++ i :: middle ∧
      writesCrc i = true ∧ ∀ j ∈ middle, writesCrc j = false :=
    exists_last_of_exists ⟨start, List.mem_cons_self, writesCrc_of_startsComputation hstart⟩
  have hcommands : start :: (others ++ [.getcrc]) = before ++ i :: (middle ++ [.getcrc]) := by
    rw [← List.cons_append, hsplit, List.append_assoc, List.cons_append]
  rw [hcommands] at wf hs ⊢
  obtain ⟨wfBefore, wf⟩ := List.forall_mem_append.1 wf
  obtain ⟨wfi, wf⟩ := List.forall_mem_cons.1 wf
  obtain ⟨wfMiddle, -⟩ := List.forall_mem_append.1 wf
  obtain ⟨c, rs, hlength, -, runBefore⟩ := runSteps_deliver before wfBefore s.crc
  obtain ⟨c', rs', hlength', runLast⟩ := runSteps_lastWriter wfi wfMiddle writes reads c rest
  have run : runSteps (before ++ i :: (middle ++ [.getcrc])).length s =
      .next ⟨c', rest, s.responses ++ rs ++ [responseWord .ok c'] ++ rs' ++ [responseWord .ok c']⟩ := by
    rw [eq_mk_of_inputs_eq hs, deliver_append, List.append_assoc, List.length_append, List.length_cons,
      List.length_append, List.length_singleton, runBefore, runLast]
  exact ⟨before, i, middle, rs, rs', _, _, rfl, writes, reads, hlength, hlength', run, rfl, rdataOf_responseWord _ _,
    statOf_responseWord _ _, rfl⟩

end Sys2Proof.Machine
end

section
/-! PROOFS. Division (40_table_builder.md rules R52 to R57, 41_crc_engine.md rules R63, R64): a division step is linear
and a bijection, a value whose top bits are clear is only shifted, and so the byte fold and FOLD divide. -/

namespace Sys2Proof.Machine

/-! ## Linearity -/

/-- A step shifts, and XORs the polynomial if the top bit was set (rule R51). -/
theorem divStep_eq_xor (x : U32) : divStep x = (x <<< 1) ^^^ (if x.getLsbD 31 then Config.poly else 0#32) := by
  cases h : x.getLsbD 31 with
  | false => rw [divStep_of_top_clear h, if_neg Bool.false_ne_true, BitVec.xor_zero]
  | true => rw [divStep_of_top_set h, if_pos rfl]

theorem divStep_xor (x y : U32) : divStep (x ^^^ y) = divStep x ^^^ divStep y := by
  have poly (a b : Bool) : (if a ^^ b then Config.poly else 0#32) =
      (if a then Config.poly else 0#32) ^^^ (if b then Config.poly else 0#32) := by
    cases a <;> cases b <;> decide
  rw [divStep_eq_xor, divStep_eq_xor x, divStep_eq_xor y, BitVec.getLsbD_xor, poly, BitVec.shiftLeft_xor_distrib]
  ac_rfl

theorem divPow_xor (k : Nat) (x y : U32) : divPow k (x ^^^ y) = divPow k x ^^^ divPow k y := by
  induction k generalizing x y with
  | zero => rfl
  | succ k ih => rw [divPow_succ, divPow_succ, divPow_succ, divStep_xor, ih]

theorem tableEntry_xor (b : Nat) (i j : U32) : tableEntry b (i ^^^ j) = tableEntry b i ^^^ tableEntry b j := by
  rw [tableEntry_def, tableEntry_def, tableEntry_def, BitVec.shiftLeft_xor_distrib, divPow_xor]

theorem tbl_xor (i j : Byte) : tbl (i ^^^ j) = tbl i ^^^ tbl j := by
  rw [tbl, BitVec.setWidth_xor, tableEntry_xor, tbl, tbl]

/-- Settles O30: the step is linear, so Div^k is, and an entry is Div^b of a shift, which is linear too. -/
theorem tableEntryIsLinear : Obligations.TableEntryIsLinear :=
  ⟨divStep_xor, fun b i j _ _ _ _ => tableEntry_xor b i j⟩

/-! ## Shifts -/

theorem toNat_shiftLeft_lt {x : U32} {m n : Nat} (h : x.toNat < 2 ^ m) : (x <<< n).toNat < 2 ^ (m + n) := by
  rw [BitVec.toNat_shiftLeft, Nat.shiftLeft_eq, pow_add]
  exact (Nat.mod_le _ _).trans_lt (Nat.mul_lt_mul_of_pos_right h (Nat.two_pow_pos n))

/-- A value with its k top bits clear is only shifted by k steps. -/
theorem divPow_of_lt {k : Nat} {x : U32} (hk : k ≤ 32) (h : x.toNat < 2 ^ (32 - k)) : divPow k x = x <<< k := by
  induction k generalizing x with
  | zero => rw [divPow_zero, BitVec.shiftLeft_zero]
  | succ k ih =>
    have shifted : (x <<< 1).toNat < 2 ^ (32 - k) := (toNat_shiftLeft_lt h).trans_eq (by congr 1; omega)
    have topClear : x.getLsbD 31 = false := by
      have half : 2 ^ (32 - (k + 1)) ≤ 2 ^ 31 := Nat.pow_le_pow_right (by decide) (by omega)
      exact Nat.testBit_lt_two_pow (h.trans_le half)
    rw [divPow_succ, divStep_of_top_clear topClear, ih (by omega) shifted, ← BitVec.shiftLeft_add, Nat.add_comm]

/-- An index of a narrow table is shifted to its place in a wider one by the steps the wider one has more (rule R57 item
3). -/
theorem tableEntry_eq_of_le {b b' : Nat} {i : U32} (hb : b ≤ b') (hb' : b' ≤ 32) (hi : i.toNat < 2 ^ b) :
    tableEntry b i = tableEntry b' i := by
  obtain ⟨k, rfl⟩ := Nat.exists_eq_add_of_le' hb
  have bound : (i <<< (32 - (k + b))).toNat < 2 ^ (32 - k) := (toNat_shiftLeft_lt hi).trans_eq (by congr 1; omega)
  rw [tableEntry_def, tableEntry_def, divPow_add, divPow_of_lt (by omega) bound, ← BitVec.shiftLeft_add]
  congr 2
  omega

theorem buildTable_prefix {b b' : Nat} (hb : b ≤ b') (hb' : b' ≤ 32) : buildTable b <+: buildTable b' := by
  have indices : (List.range (2 ^ b')).take (2 ^ b) = List.range (2 ^ b) := by
    rw [List.take_range, min_eq_left (Nat.pow_le_pow_right (by decide) hb)]
  have entries : buildTable b = (buildTable b').take (2 ^ b) := by
    rw [buildTable, buildTable, ← List.map_take, indices]
    exact List.map_congr_left fun i hi => tableEntry_eq_of_le hb hb' (indexInTable_ofNat (List.mem_range.1 hi))
  rw [entries]
  exact List.take_prefix _ _

/-- Settles O32: the wider table only shifts first, and `buildTable` lists the entries by index. -/
theorem narrowTableIsPrefixOfWider : Obligations.NarrowTableIsPrefixOfWider :=
  ⟨fun _ _ _ _ hb hb' hi => tableEntry_eq_of_le hb hb' hi, fun _ _ _ hb hb' => buildTable_prefix hb hb'⟩

/-- Entry 1 is the polynomial, since it is so at width 1 (rule R56). -/
theorem tableEntry_one {b : Nat} (pos : 1 ≤ b) (le : b ≤ 32) : tableEntry b 1#32 = Config.poly := by
  rw [← tableEntry_eq_of_le pos le (by decide)]
  decide

/-- Settles O29: both entries are the same at every width. -/
theorem boundaryEntries : Obligations.BoundaryEntries :=
  fun b pos le => ⟨tableEntry_zero b, tableEntry_one pos le⟩

/-! ## Distinct entries -/

/-- POLY is odd, and a shifted value is even: only 0 is divided to 0. -/
theorem eq_zero_of_divStep_eq_zero {x : U32} (h : divStep x = 0#32) : x = 0#32 := by
  cases top : x.getLsbD 31 with
  | false =>
    rw [divStep_of_top_clear top] at h
    refine BitVec.eq_of_getLsbD_eq fun j hj => ?_
    by_cases last : j = 31
    · rw [last, top, BitVec.getLsbD_zero]
    · simpa [hj, show j + 1 < 32 by omega] using congrArg (·.getLsbD (j + 1)) h
  | true =>
    rw [divStep_of_top_set top, BitVec.xor_eq_zero_iff] at h
    have even : (x <<< 1).getLsbD 0 = false := by simp
    rw [h] at even
    exact absurd even (by decide)

theorem divStep_injective : Function.Injective divStep := fun x y h => by
  rw [← BitVec.xor_eq_zero_iff, ← divStep_xor] at h
  exact BitVec.xor_eq_zero_iff.1 (eq_zero_of_divStep_eq_zero h)

theorem divPow_injective (k : Nat) : Function.Injective (divPow k) := by
  induction k with
  | zero => exact Function.injective_id
  | succ k ih => exact ih.comp divStep_injective

/-- An index in the table of width b is not cut by the shift to the top (rule R52). -/
theorem toNat_shiftLeft_of_indexInTable {b : Nat} {i : U32} (hb : b ≤ 32) (hi : indexInTable b i) :
    (i <<< (32 - b)).toNat = i.toNat * 2 ^ (32 - b) := by
  have split : 2 ^ 32 = 2 ^ b * 2 ^ (32 - b) := by rw [← pow_add]; congr 1; omega
  rw [BitVec.toNat_shiftLeft, Nat.shiftLeft_eq, Nat.mod_eq_of_lt]
  rw [split]
  exact Nat.mul_lt_mul_of_pos_right hi (Nat.two_pow_pos _)

theorem eq_of_tableEntry_eq {b : Nat} {i j : U32} (hb : b ≤ 32) (hi : indexInTable b i) (hj : indexInTable b j)
    (h : tableEntry b i = tableEntry b j) : i = j := by
  have shifted : (i <<< (32 - b)).toNat = (j <<< (32 - b)).toNat := congrArg _ (divPow_injective b h)
  rw [toNat_shiftLeft_of_indexInTable hb hi, toNat_shiftLeft_of_indexInTable hb hj] at shifted
  exact BitVec.eq_of_toNat_eq (Nat.eq_of_mul_eq_mul_right (Nat.two_pow_pos _) shifted)

/-- Of the 256 entries only entry 0 has a top byte of 0. -/
theorem eq_zero_of_tbl_top_eq_zero : ∀ k : Byte, (tbl k).extractLsb' 24 8 = 0#8 → k = 0#8 := by decide +kernel

/-- Settles O31: the step and the top byte are linear, so it is enough that 0 alone goes to 0; a table's index is
shifted to the top without loss. -/
theorem tableEntriesAreDistinct : Obligations.TableEntriesAreDistinct := by
  refine ⟨Finite.injective_iff_bijective.1 divStep_injective, fun b i j _ hb hi hj => eq_of_tableEntry_eq hb hi hj,
    fun i j h => ?_⟩
  rw [← BitVec.xor_eq_zero_iff, ← BitVec.extractLsb'_xor, ← tbl_xor] at h
  exact BitVec.xor_eq_zero_iff.1 (eq_zero_of_tbl_top_eq_zero _ h)

/-! ## The byte fold -/

/-- A value is its top byte in place, XORed with the three bytes below. -/
theorem eq_top_xor_low (c : U32) :
    c = ((c.extractLsb' 24 8).setWidth 32 <<< 24) ^^^ (c.extractLsb' 0 24).setWidth 32 := by
  refine BitVec.eq_of_getLsbD_eq fun j hj => ?_
  by_cases h : j < 24
  · simp [h, hj]
  · simp [h, hj, show j - 24 < 8 by omega, show 24 + (j - 24) = j by omega]

/-- Eight steps on a byte in the top place give its entry of the engine's table (rules R10, R52). -/
theorem divPow_eight_top (b : Byte) : divPow 8 (b.setWidth 32 <<< 24) = tbl b := rfl

/-- A byte fold is eight steps: the table answers for the top byte, and the bytes below are shifted (rule R63). -/
theorem byteFold_eq_divPow (c : U32) (b : Byte) : byteFold c b = divPow 8 (c ^^^ (b.setWidth 32 <<< 24)) := by
  have low : divPow 8 ((c.extractLsb' 0 24).setWidth 32) = c <<< 8 := by
    rw [divPow_of_lt (by decide)]
    · refine BitVec.eq_of_getLsbD_eq fun j hj => ?_
      by_cases h : j < 8
      · simp [h]
      · simp [h, hj, show j - 8 < 24 by omega, show j - 8 < 32 by omega]
    · rw [BitVec.toNat_setWidth_of_le (by decide)]
      exact (c.extractLsb' 0 24).isLt
  calc byteFold c b
      = c <<< 8 ^^^ (tbl (c.extractLsb' 24 8) ^^^ tbl b) := by rw [byteFold, tbl_xor]
    _ = (tbl (c.extractLsb' 24 8) ^^^ c <<< 8) ^^^ tbl b := by ac_rfl
    _ = divPow 8 c ^^^ tbl b := by
      conv_rhs => rw [eq_top_xor_low c, divPow_xor, divPow_eight_top, low]
    _ = divPow 8 (c ^^^ (b.setWidth 32 <<< 24)) := by rw [divPow_xor, divPow_eight_top]

/-- Settles O33: linearity splits off the top byte, which the table answers for, from the bytes that are shifted. -/
theorem byteFoldIsEightDivisionSteps : Obligations.ByteFoldIsEightDivisionSteps := byteFold_eq_divPow

/-- A byte folded in after k steps is divided with the value if it stands k places lower. -/
theorem byteFold_divPow {k : Nat} (hk : k ≤ 24) (x : U32) (b : Byte) :
    byteFold (divPow k x) b = divPow (k + 8) (x ^^^ (b.setWidth 32 <<< (24 - k))) := by
  have byte : (b.setWidth 32).toNat < 2 ^ 8 := (BitVec.toNat_setWidth_of_le (by decide)).trans_lt b.isLt
  have bound : (b.setWidth 32 <<< (24 - k)).toNat < 2 ^ (32 - k) :=
    (toNat_shiftLeft_lt byte).trans_eq (by congr 1; omega)
  have lower : b.setWidth 32 <<< 24 = divPow k (b.setWidth 32 <<< (24 - k)) := by
    rw [divPow_of_lt (by omega) bound, ← BitVec.shiftLeft_add, Nat.sub_add_cancel hk]
  rw [byteFold_eq_divPow, lower, ← divPow_xor, divPow_add]

/-! ## FOLD -/

theorem getLsbD_byte_in_place (w : U32) {p j : Nat} (hj : j < 32) :
    ((w.extractLsb' p 8).setWidth 32 <<< p).getLsbD j = (decide (p ≤ j ∧ j < p + 8) && w.getLsbD j) := by
  by_cases low : p ≤ j
  · by_cases high : j < p + 8
    · simp [hj, low, high, show j - p < 8 by omega]
    · simp [hj, low, high, show ¬ j - p < 8 by omega]
  · simp [hj, low, Nat.lt_of_not_le low]

/-- A word is the XOR of its bytes in place: each bit is in one of them. -/
theorem eq_xor_bytes (w : U32) : w = (w.extractLsb' 24 8).setWidth 32 <<< 24 ^^^
    (w.extractLsb' 16 8).setWidth 32 <<< 16 ^^^ (w.extractLsb' 8 8).setWidth 32 <<< 8 ^^^
    (w.extractLsb' 0 8).setWidth 32 <<< 0 := by
  refine BitVec.eq_of_getLsbD_eq fun j hj => ?_
  simp only [BitVec.getLsbD_xor, getLsbD_byte_in_place w hj]
  grind

theorem extractLsb'_append_byte_add {n : Nat} (x : BitVec n) (b : Byte) (p : Nat) :
    (x ++ b).extractLsb' (p + 8) 8 = x.extractLsb' p 8 := by
  rw [BitVec.extractLsb'_append_eq_of_le (Nat.le_add_left 8 p), Nat.add_sub_cancel]

theorem bytes_of_append (a b c d : Byte) :
    [(a ++ b ++ c ++ d).extractLsb' 24 8, (a ++ b ++ c ++ d).extractLsb' 16 8, (a ++ b ++ c ++ d).extractLsb' 8 8,
      (a ++ b ++ c ++ d).extractLsb' 0 8] = [a, b, c, d] := by
  rw [extractLsb'_append_byte_add _ d 16, extractLsb'_append_byte_add _ d 8, extractLsb'_append_byte_add _ d 0,
    extractLsb'_append_byte_add _ c 8, extractLsb'_append_byte_add _ c 0, extractLsb'_append_byte_add _ b 0,
    BitVec.extractLsb'_append_eq_right, BitVec.extractLsb'_append_eq_right, BitVec.extractLsb'_append_eq_right,
    BitVec.extractLsb'_eq_self]

/-- Settles O35: the word view of a partial chunk is its padding zeros and then its bytes, side by side. -/
theorem wordViewBytesAreConsumed : Obligations.WordViewBytesAreConsumed := by
  intro n d pos le
  obtain rfl | rfl | rfl | rfl : n = 1 ∨ n = 2 ∨ n = 3 ∨ n = 4 := by omega
  · exact (bytes_of_append 0#8 0#8 0#8 (lane d 0)).symm
  · exact (bytes_of_append 0#8 0#8 (lane d 0) (lane d 1)).symm
  · exact (bytes_of_append 0#8 (lane d 0) (lane d 1) (lane d 2)).symm
  · rfl

/-- The byte folds of a word's bytes, the most significant first, divide CRC XORed with the word. -/
theorem byteFold_bytes (c w : U32) :
    byteFold (byteFold (byteFold (byteFold c (w.extractLsb' 24 8)) (w.extractLsb' 16 8)) (w.extractLsb' 8 8))
      (w.extractLsb' 0 8) = divPow 32 (c ^^^ w) := by
  calc byteFold (byteFold (byteFold (byteFold c (w.extractLsb' 24 8)) (w.extractLsb' 16 8)) (w.extractLsb' 8 8))
        (w.extractLsb' 0 8)
      = divPow 32 (c ^^^ (w.extractLsb' 24 8).setWidth 32 <<< 24 ^^^ (w.extractLsb' 16 8).setWidth 32 <<< 16 ^^^
          (w.extractLsb' 8 8).setWidth 32 <<< 8 ^^^ (w.extractLsb' 0 8).setWidth 32 <<< 0) := by
        rw [byteFold_eq_divPow c, byteFold_divPow (by decide), byteFold_divPow (by decide),
          byteFold_divPow (by decide)]
    _ = divPow 32 (c ^^^ w) := by
        conv_rhs => rw [eq_xor_bytes w]
        simp only [BitVec.xor_assoc]

/-- FOLD's effect on CRC (rule R64). -/
theorem processWord_eq_divPow {n : Nat} (pos : 1 ≤ n) (le : n ≤ 4) (c d : U32) :
    processWord c n d = divPow 32 (c ^^^ wordView n d) := by
  rw [processWord_of_consumeSeq (wordViewBytesAreConsumed n d pos le), byteFold_bytes]

/-- FOLD in full (rule R67). -/
theorem exec_fold_eq (n : Nat) (d : U32) (s : State) : exec (.fold n d) s =
    .next ⟨processWord s.crc n d, s.inputs, s.responses ++ [0x00000000#32 ++ processWord s.crc n d]⟩ :=
  updateCrc_eq_append _ s

/-- Settles O13: the bytes consumed are those of the word view, and each byte fold is eight steps. -/
theorem foldDividesCrcXorWordView : Obligations.FoldDividesCrcXorWordView := by
  intro n d s pos le
  rw [exec_fold_eq, processWord_eq_divPow pos le]

theorem exec_fold_of_consumeSeq {n : Nat} {d : U32} {q1 q2 q3 q4 : Byte} (h : consumeSeq n d = [q1, q2, q3, q4])
    (s : State) : exec (.fold n d) s = .next ⟨byteFold (byteFold (byteFold (byteFold s.crc q1) q2) q3) q4, s.inputs,
      s.responses ++ [0x00000000#32 ++ byteFold (byteFold (byteFold (byteFold s.crc q1) q2) q3) q4]⟩ := by
  rw [exec_fold_eq, processWord_of_consumeSeq h]

/-- The word view of zero bytes is 0, whatever their number. -/
theorem wordView_zero {n : Nat} (pos : 1 ≤ n) (le : n ≤ 4) : wordView n 0#32 = 0#32 := by
  obtain rfl | rfl | rfl | rfl : n = 1 ∨ n = 2 ∨ n = 3 ∨ n = 4 := by omega
  all_goals rfl

theorem processWord_zero {n : Nat} (pos : 1 ≤ n) (le : n ≤ 4) (c : U32) : processWord c n 0#32 = divPow 32 c := by
  rw [processWord_eq_divPow pos le, wordView_zero pos le, BitVec.xor_zero]

/-- A format with two ranges of reserved bits: the word is the command if both are zero (rule R46). -/
theorem ifReservedZero_beq_and {m n : Nat} (x : BitVec m) (y : BitVec n) (i : Instr) :
    ifReservedZero (x == 0#m && y == 0#n) i = if x = 0#m ∧ y = 0#n then .command i else .illegal .reservedBit := by
  simp only [ifReservedZero, Bool.and_eq_true, beq_iff_eq]

/-- Settles O12: FOLD is four byte folds in the order consumed; on a zero chunk and on CRC itself it is a division of a
constant (rule R64); the decoder's case of the OPC gives the rest. -/
theorem foldFoldsChunkIntoCrc : Obligations.FoldFoldsChunkIntoCrc := by
  refine ⟨fun d s => ⟨exec_fold_of_consumeSeq (consumeSeq_four d) s, exec_fold_of_consumeSeq (consumeSeq_three d) s,
    exec_fold_of_consumeSeq (consumeSeq_two d) s, exec_fold_of_consumeSeq (consumeSeq_one d) s⟩, fun n pos le => ?_,
    fun c => ?_, fun w h => (decode_of_opc (i := .fold 0 0) h).trans (ifReservedZero_beq_and _ _ _)⟩
  · rw [processWord_zero pos le, processWord_zero pos le]
    exact ⟨by decide +kernel, divPow_of_zero 32⟩
  · rw [processWord_eq_divPow (by decide) le_rfl, show wordView 4 c = c from rfl, BitVec.xor_self, divPow_of_zero]

/-! ## TBLENT -/

theorem responseWord_cfgErr : responseWord .cfgErr 0#32 = 0x0000000200000000#64 := by decide
theorem responseWord_rangeErr : responseWord .rangeErr 0#32 = 0x0000000300000000#64 := by decide

section
variable {b : Nat} {i : U32} (s : State)

/-- TBLENT in full, by its two checks (rules R59, R79, R80). -/
theorem exec_tblent_valid (hb : widthValid b) (hi : indexInTable b i) : exec (.tblent b i) s =
    .next ⟨s.crc, s.inputs, s.responses ++ [0x00000000#32 ++ tableEntry b i]⟩ := by
  rw [exec_tblent, execTblent_valid hb hi, complete_eq, responseWord_ok]

theorem exec_tblent_badWidth (hb : ¬ widthValid b) : exec (.tblent b i) s =
    .next ⟨s.crc, s.inputs, s.responses ++ [0x0000000200000000#64]⟩ := by
  rw [exec_tblent, execTblent_badWidth hb, raise_eq, responseWord_cfgErr]

theorem exec_tblent_badIndex (hb : widthValid b) (hi : ¬ indexInTable b i) : exec (.tblent b i) s =
    .next ⟨s.crc, s.inputs, s.responses ++ [0x0000000300000000#64]⟩ := by
  rw [exec_tblent, execTblent_badIndex hb hi, raise_eq, responseWord_rangeErr]

end

/-- A byte is an index of the engine's table (rule R10). -/
theorem indexInTable_eight (i : Byte) : indexInTable 8 (i.setWidth 32) :=
  (BitVec.toNat_setWidth_of_le (by decide)).trans_lt i.isLt

/-- Settles O15: the two checks of TBLENT give the three outcomes, an entry of width 8 is the engine's by definition,
and the decoder's case of the OPC gives the rest. -/
theorem tblentComputesEntry : Obligations.TblentComputesEntry := by
  refine ⟨fun b i s pos le hi => exec_tblent_valid s ⟨pos, le⟩ hi,
    fun b i s invalid => exec_tblent_badWidth s (not_widthValid_iff.2 invalid),
    fun b i s pos le hi => exec_tblent_badIndex s ⟨pos, le⟩ hi.not_gt, fun i s => ?_, fun i => i.isLt,
    fun s => ⟨?_, ?_⟩, fun w h => (decode_of_opc (i := .tblent 0 0) h).trans (ifReservedZero_beq_and _ _ _)⟩
  · exact execTblent_valid (by decide) (indexInTable_eight i) s
  · rw [exec_tblent_valid s (by decide) (by decide), tableEntry_zero, BitVec.zero_append_zero]
  · rw [exec_tblent_valid s (by decide) (by decide), tableEntry_one le_rfl (by decide)]
    rfl

end Sys2Proof.Machine
end

section
/-! PROOFS. The round trips of encoding (30_encoding.md rules R43, R46, R49): a command's OPC, its reserved bits and its
operands are all there is in its word. -/

namespace Sys2Proof

/-- The decoder's operands fit their fields (rule R43). -/
theorem Instr.wf_withFields (i : Instr) (w : CommandWord) : (i.withFields w).wf = true := by
  cases i with
  | fold n data =>
    have lenm1 : (lenm1Field w).toNat < 4 := (lenm1Field w).isLt
    exact decide_eq_true (show 1 ≤ _ + 1 ∧ _ + 1 ≤ 4 by omega)
  | tblent bits index => exact decide_eq_true (Nat.le_of_lt_succ (bitsField w).isLt)
  | init | seed | getcrc | tblrd => rfl

theorem word_eq_iff_extractLsb' (w v : CommandWord) : w = v ↔ w.extractLsb' 0 64 = v.extractLsb' 0 64 := by
  rw [BitVec.extractLsb'_eq_self, BitVec.extractLsb'_eq_self]

/-- Words of one OPC with the reserved bits of its format zero differ in the operands only: OPC, the reserved bits and
the operand fields are the whole word (rules R38 to R42). -/
theorem word_eq_of_fields {i : Instr} {w v : CommandWord} (hopc : opcField w = opcField v)
    (hw : i.reservedZero w = true) (hv : i.reservedZero v = true) (operands : i.withFields w = i.withFields v) :
    w = v := by
  rw [word_eq_iff_extractLsb', extractLsb'_eq_iff_cut w v 0 8 56]
  refine ⟨hopc, ?_⟩
  cases i with
  | init | getcrc =>
    simp only [Instr.reservedZero, reservedOkN, beq_iff_eq] at hw hv
    exact hw.trans hv.symm
  | seed data =>
    simp only [Instr.reservedZero, reservedOkD, beq_iff_eq] at hw hv
    simp only [Instr.withFields, Instr.seed.injEq] at operands
    rw [extractLsb'_eq_iff_cut w v 0 24 32]
    exact ⟨hw.trans hv.symm, operands⟩
  | fold n data =>
    simp only [Instr.reservedZero, reservedOkF, Bool.and_eq_true, beq_iff_eq] at hw hv
    simp only [Instr.withFields, Instr.fold.injEq, Nat.add_right_cancel_iff, BitVec.toNat_inj] at operands
    obtain ⟨hwHigh, hwLow⟩ := hw
    obtain ⟨hvHigh, hvLow⟩ := hv
    obtain ⟨lenm1, data⟩ := operands
    rw [extractLsb'_eq_iff_cut w v 0 6 50, extractLsb'_eq_iff_cut w v 0 2 48, extractLsb'_eq_iff_cut w v 0 16 32]
    exact ⟨hwHigh.trans hvHigh.symm, lenm1, hwLow.trans hvLow.symm, data⟩
  | tblrd index8 =>
    simp only [Instr.reservedZero, reservedOkR, beq_iff_eq] at hw hv
    simp only [Instr.withFields, Instr.tblrd.injEq] at operands
    rw [extractLsb'_eq_iff_cut w v 0 48 8]
    exact ⟨hw.trans hv.symm, operands⟩
  | tblent bits index =>
    simp only [Instr.reservedZero, reservedOkT, Bool.and_eq_true, beq_iff_eq] at hw hv
    simp only [Instr.withFields, Instr.tblent.injEq, BitVec.toNat_inj] at operands
    obtain ⟨hwHigh, hwLow⟩ := hw
    obtain ⟨hvHigh, hvLow⟩ := hv
    obtain ⟨bits, index⟩ := operands
    rw [extractLsb'_eq_iff_cut w v 0 2 54, extractLsb'_eq_iff_cut w v 0 6 48, extractLsb'_eq_iff_cut w v 0 16 32]
    exact ⟨hwHigh.trans hvHigh.symm, bits, hwLow.trans hvLow.symm, index⟩

/-- Settles O22: the encoding has the OPC, the zero bits and the operands of the command, in `decode_encode`. -/
theorem decodeEncodeRoundTrip : Obligations.DecodeEncodeRoundTrip := fun _ => decode_encode

/-- Settles O23: the word and the encoding of its command both have the command's OPC, its reserved bits zero and its
operands. -/
theorem encodeDecodeRoundTrip : Obligations.EncodeDecodeRoundTrip := by
  intro w i h
  obtain ⟨hopc, hzero, operands⟩ := fields_of_decode h
  have wf : i.wf = true := by
    rw [← operands]
    exact i.wf_withFields w
  obtain ⟨hopc', hzero', operands'⟩ := fields_of_decode (decode_encode wf)
  exact ⟨wf, word_eq_of_fields (hopc'.trans hopc.symm) hzero' hzero (operands'.trans operands.symm)⟩

/-- Settles O27: each word is run through the decoder. -/
theorem knownWordsDecode : Obligations.KnownWordsDecode := by
  refine ⟨?_, ?_, ?_, ?_, ?_, ?_, ?_, ?_, ?_, ?_⟩
  all_goals decide

end Sys2Proof
end

section
/-! PROOFS. Buffers and the host's side (42_entry_points.md rules R69 to R73, 30_encoding.md rules R49, R50,
60_exceptions.md rule R81): chaining over pieces, the lines of the assembler, and the host's checks. -/

namespace Sys2Proof.Machine

/-! ## Chaining -/

/-- A buffer of full chunks is cut off from what follows it (rule R19). -/
theorem chunks_append {p : List Byte} (h : p.length % 4 = 0) (q : List Byte) :
    chunks (p ++ q) = chunks p ++ chunks q := by
  induction p using chunks_induction with
  | nil => rfl
  | short chunk lt nonempty =>
    have pos : 0 < chunk.length := List.length_pos_iff.2 nonempty
    omega
  | four c0 c1 c2 c3 rest ih =>
    simp only [List.length_cons] at h
    exact congrArg ([c0, c1, c2, c3] :: ·) (ih (by omega))

theorem compute_append {p : List Byte} (h : p.length % 4 = 0) (seed : U32) (q : List Byte) :
    compute seed (p ++ q) = compute (compute seed p) q := by
  simp only [compute_eq_foldl, chunks_append h, List.foldl_append]

/-- Settles O42: by induction on the pieces; the first one is of full chunks, or only empty pieces follow it. -/
theorem alignedChaining : Obligations.AlignedChaining := by
  intro seed pieces aligned
  induction pieces generalizing seed with
  | nil => exact (compute_nil seed).symm
  | cons p pieces ih =>
    have rest : pieces.foldl compute (compute seed p) = compute (compute seed p) pieces.flatten :=
      ih _ fun before q after h => aligned (p :: before) q after (congrArg _ h)
    rw [List.foldl_cons, rest, List.flatten_cons]
    by_cases hlast : ∃ q ∈ pieces, q ≠ []
    · exact (compute_append (aligned [] p pieces rfl hlast) seed _).symm
    · have nothing : pieces.flatten = [] := List.flatten_eq_nil_iff.2 (by simpa using hlast)
      rw [nothing, compute_nil, List.append_nil]

/-- Settles O43: both values are evaluated from the definitions. -/
theorem unalignedChainingExample : Obligations.UnalignedChainingExample := by
  refine ⟨?_, ?_⟩
  · decide +kernel
  · decide +kernel

/-- A FOLD folds four bytes, the padding of a partial chunk among them (rules R61, R100). -/
theorem length_consumeSeq {n : Nat} (h : Instr.chunkLengthOk n) (d : U32) : (consumeSeq n d).length = 4 := by
  obtain ⟨pos, le⟩ : 1 ≤ n ∧ n ≤ 4 := h
  rw [wordViewBytesAreConsumed n d pos le]
  rfl

/-- Settles O48: a chunk has one to four bytes and costs one FOLD. -/
theorem foldsPerBuffer : Obligations.FoldsPerBuffer := by
  intro seed buffer
  refine ⟨(chunks buffer).map foldb, rfl, by rw [List.length_map, length_chunks],
    List.forall_mem_map.2 fun chunk h => ?_⟩
  have lengthOk : Instr.chunkLengthOk chunk.length := chunkLengthOk_of_mem_chunks h
  exact ⟨_, _, rfl, decide_eq_true lengthOk, length_consumeSeq lengthOk _⟩

/-! ## The operands of a line -/

theorem asU32_of_lt {v : Nat} (h : v < 2 ^ 32) : asU32 v = some (BitVec.ofNat 32 v) := if_pos h
theorem asU32_of_le {v : Nat} (h : 2 ^ 32 ≤ v) : asU32 v = none := if_neg h.not_gt
theorem asU32_toNat (d : U32) : asU32 d.toNat = some d := by
  rw [asU32_of_lt d.isLt, BitVec.ofNat_toNat, BitVec.setWidth_eq]

theorem asByte_of_lt {v : Nat} (h : v < 256) : asByte v = some (BitVec.ofNat 8 v) := if_pos h
theorem asByte_of_le {v : Nat} (h : 256 ≤ v) : asByte v = none := if_neg h.not_gt
theorem asByte_toNat (b : Byte) : asByte b.toNat = some b := by
  rw [asByte_of_lt b.isLt, BitVec.ofNat_toNat, BitVec.setWidth_eq]

theorem mapM_asByte_toNat (chunk : List Byte) : (chunk.map BitVec.toNat).mapM asByte = some chunk := by
  induction chunk with
  | nil => rfl
  | cons b chunk ih =>
    rw [List.map_cons, List.mapM_cons, asByte_toNat, ih]
    rfl

theorem mapM_asByte_eq_none {bytes : List Nat} (h : ∃ v ∈ bytes, 256 ≤ v) : bytes.mapM asByte = none := by
  induction bytes with
  | nil => simp at h
  | cons b bytes ih =>
    rw [List.mapM_cons]
    by_cases hb : 256 ≤ b
    · rw [asByte_of_le hb]
      rfl
    · have others : ∃ v ∈ bytes, 256 ≤ v := by simpa [hb] using h
      rw [asByte_of_lt (Nat.lt_of_not_le hb), ih others]
      rfl

/-- One to four bytes are a chunk (rule R50). -/
theorem asChunk_toNat {chunk : List Byte} (h : Instr.chunkLengthOk chunk.length) :
    asChunk (chunk.map BitVec.toNat) = some chunk := by
  rw [asChunk, if_pos (by rwa [List.length_map]), mapM_asByte_toNat]

theorem asChunk_eq_none {bytes : List Nat}
    (h : bytes.length = 0 ∨ 4 < bytes.length ∨ ∃ v ∈ bytes, 256 ≤ v) : asChunk bytes = none := by
  by_cases hlength : 1 ≤ bytes.length ∧ bytes.length ≤ 4
  · have big : ∃ v ∈ bytes, 256 ≤ v := by
      obtain h | h | h := h
      · omega
      · omega
      · exact h
    rw [asChunk, if_pos hlength, mapM_asByte_eq_none big]
  · rw [asChunk, if_neg hlength]

theorem expand_foldb {chunk : List Byte} (h : Instr.chunkLengthOk chunk.length) :
    expand (.foldb (chunk.map BitVec.toNat)) = some [foldb chunk] := by
  rw [expand, asChunk_toNat h, Option.map_some]

/-- The lanes below n are kept and the others cleared (rule R49; log entry 12). -/
theorem lane_keepLanes (n : Nat) (d : U32) {j : Nat} (hj : j < 4) :
    (keepLanes n d).extractLsb' (8 * j) 8 = if j < n then d.extractLsb' (8 * j) 8 else 0#8 := by
  refine BitVec.eq_of_getLsbD_eq fun i hi => ?_
  have kept : (BitVec.ofNat 32 (2 ^ (8 * n) - 1)).getLsbD (8 * j + i) = decide (j < n) := by
    rw [BitVec.getLsbD_ofNat, Nat.testBit_two_pow_sub_one]
    by_cases h : j < n
    · simp [h, show 8 * j + i < 32 by omega, show 8 * j + i < 8 * n by omega]
    · simp [h, show ¬ 8 * j + i < 8 * n by omega]
  rw [keepLanes, BitVec.getLsbD_extractLsb', BitVec.getLsbD_and, kept]
  by_cases h : j < n
  · simp [h]
  · simp [h]

/-! ## The words of a line -/

section
variable {l : AsmLine}

/-- A line that stands for one well-formed command is one word, which decodes to it (rule R49). -/
theorem assemble_decodes {i : Instr} (h : expand l = some [i]) (wf : i.wf = true) :
    ∃ w, assemble l = some [w] ∧ decode w = .command i :=
  ⟨encode i, by rw [assemble, h]; rfl, decode_encode wf⟩

theorem assemble_eq_none (h : expand l = none) : assemble l = none := by rw [assemble, h, Option.map_none]

end

section
variable {v : Nat}

theorem expand_fold {n : Nat} (pos : 1 ≤ n) (le : n ≤ 4) (h : v < 2 ^ 32) :
    expand (.fold n v) = some [.fold n (keepLanes n (BitVec.ofNat 32 v))] := by
  rw [expand, if_pos ⟨pos, le⟩, asU32_of_lt h, Option.map_some]

theorem expand_tblent {b : Nat} (hb : b ≤ 63) (h : v < 2 ^ 32) :
    expand (.tblent b v) = some [.tblent b (BitVec.ofNat 32 v)] := by
  rw [expand, if_pos hb, asU32_of_lt h, Option.map_some]

/-- An operand too large for DATA is rejected, whatever the other operands are (log entry 13). -/
theorem expand_eq_none_of_large_u32 (h : 2 ^ 32 ≤ v) : expand (.seed v) = none ∧ (∀ n, expand (.fold n v) = none) ∧
    (∀ b, expand (.tblent b v) = none) ∧ ∀ buffer, expand (.compute v buffer) = none := by
  simp only [expand, asU32_of_le h, Option.map_none, ite_self, implies_true, and_self]

end

/-- Settles O49: a line with operands in range stands for one well-formed command, and every other expands to none. -/
theorem assembledLinesDecode : Obligations.AssembledLinesDecode := by
  refine ⟨assemble_decodes rfl rfl, assemble_decodes rfl rfl, fun v h => ?_, fun n v pos le h => ?_, fun v h => ?_,
    fun b v hb h => ?_, fun n v h => ?_, fun b v h => ?_, fun v h => ?_, fun v h => ?_, fun bytes h => ?_,
    fun bits h => ?_⟩
  · exact assemble_decodes (by rw [expand, asU32_of_lt h, Option.map_some]) rfl
  · obtain ⟨w, hword, hdecode⟩ := assemble_decodes (expand_fold pos le h) (decide_eq_true ⟨pos, le⟩)
    refine ⟨w, _, hword, hdecode, fun j hj => ?_, fun j hj h4 => ?_⟩
    · rw [lane_keepLanes n _ (by omega), if_pos hj]
    · rw [lane_keepLanes n _ h4, if_neg hj.not_gt]
  · exact assemble_decodes (by rw [expand, asByte_of_lt h, Option.map_some]) rfl
  · exact assemble_decodes (expand_tblent hb h) (decide_eq_true hb)
  · exact assemble_eq_none (if_neg (by omega))
  · exact assemble_eq_none (if_neg h.not_ge)
  · obtain ⟨seed, fold, tblent, compute⟩ := expand_eq_none_of_large_u32 h
    exact ⟨assemble_eq_none seed, fun n => assemble_eq_none (fold n), fun b => assemble_eq_none (tblent b),
      fun buffer => assemble_eq_none (compute buffer)⟩
  · exact assemble_eq_none (by rw [expand, asByte_of_le h, Option.map_none])
  · exact assemble_eq_none (by rw [expand, asChunk_eq_none h, Option.map_none])
  · exact assemble_eq_none (if_neg h.not_ge)

/-! ## The pseudo-instructions -/

theorem packLanes_one (c0 : Byte) : packLanes [c0] = c0.setWidth 32 := by simp

theorem packLanes_two (c0 c1 : Byte) : packLanes [c0, c1] = c0.setWidth 32 ||| c1.setWidth 32 <<< 8 := by simp

theorem packLanes_three (c0 c1 c2 : Byte) : packLanes [c0, c1, c2] =
    c0.setWidth 32 ||| c1.setWidth 32 <<< 8 ||| c2.setWidth 32 <<< 16 := by
  simp [BitVec.shiftLeft_or_distrib, ← BitVec.shiftLeft_add, BitVec.or_assoc]

@[simp] theorem length_buildTableCommands (bits : Nat) : (buildTableCommands bits).length = 2 ^ bits := by
  rw [buildTableCommands, List.length_map, List.length_range]

theorem getElem?_buildTableCommands {bits i : Nat} (h : i < 2 ^ bits) :
    (buildTableCommands bits)[i]? = some (.tblent bits (BitVec.ofNat 32 i)) := by
  rw [buildTableCommands, List.getElem?_map, List.getElem?_range h, Option.map_some]

/-- Settles O50: FOLDB's bytes are a chunk and are packed little-endian; the other lines are their command lists, and
BUILDTABLE's is by index. -/
theorem pseudoInstructionsExpand : Obligations.PseudoInstructionsExpand := by
  refine ⟨fun c0 => ?_, fun c0 c1 => ?_, fun c0 c1 c2 => ?_, fun c0 c1 c2 c3 => ?_, fun seed buffer => ?_, fun _ => rfl,
    fun bits h => ⟨_, if_pos h, fun _ => length_buildTableCommands bits, fun i hi _ => getElem?_buildTableCommands hi⟩⟩
  · rw [← packLanes_one]
    exact expand_foldb (chunk := [c0]) (by decide : Instr.chunkLengthOk 1)
  · rw [← packLanes_two]
    exact expand_foldb (chunk := [c0, c1]) (by decide : Instr.chunkLengthOk 2)
  · rw [← packLanes_three]
    exact expand_foldb (chunk := [c0, c1, c2]) (by decide : Instr.chunkLengthOk 3)
  · rw [← packLanes_four]
    exact expand_foldb (chunk := [c0, c1, c2, c3]) (by decide : Instr.chunkLengthOk 4)
  · rw [expand, asU32_toNat, Option.map_some, computeCommands]

/-! ## The host's checks -/

/-- Settles O51: the check is that every value is below 256, and bytes are. -/
theorem hostRejectsNonBytes : Obligations.HostRejectsNonBytes := by
  refine ⟨fun buffer ⟨v, hmem, hv⟩ => if_neg fun hall => ?_, fun buffer => ?_⟩
  · exact absurd (of_decide_eq_true (List.all_eq_true.1 hall v hmem)) (Nat.not_lt.2 hv)
  · have bytes : (buffer.map BitVec.toNat).all (· < 256) = true :=
      List.all_eq_true.2 (List.forall_mem_map.2 fun b _ => decide_eq_true b.isLt)
    have same : (buffer.map BitVec.toNat).map (BitVec.ofNat 8) = buffer := by
      rw [List.map_map]
      exact List.map_id'' (fun b => (BitVec.ofNat_toNat 8 b).trans (BitVec.setWidth_eq b)) buffer
    rw [hostBytes, if_pos bytes, same]

/-- Settles O52: every command of BUILDTABLE at an encodable width is well formed. -/
theorem tableRequestSendsOnlyEncodableCommands : Obligations.TableRequestSendsOnlyEncodableCommands := by
  refine ⟨fun bits h => ⟨if_pos h, fun _ _ => length_buildTableCommands bits, ?_⟩, fun bits h => if_neg h.not_ge⟩
  exact List.forall_mem_map.2 fun i _ => decode_encode (Instr.wf_tblent h _)

end Sys2Proof.Machine
end
